-- ==== Sys2Proof/Word.lean ====
section
/-! DEFINITION. The widths of the machine's values (spec/00_scope.md R6): 8-bit registers and bytes, 16-bit
words (I, PC, stack entries, instruction words), 12-bit addresses in encodings. All values are unsigned (R8). -/
namespace Sys2Proof

/-- A memory byte or a general register (R6, R22). -/
abbrev Byte := BitVec 8

/-- I, PC, a stack entry, an instruction word (R6, R70). -/
abbrev Word := BitVec 16

/-- The `nnn` field of an instruction (R14). -/
abbrev Addr12 := BitVec 12

/-- A register index `x` or `y`, 0..15 (R14, R22). -/
abbrev Reg := Fin 16

/-- A key index, 0..15 (R35, R101). -/
abbrev KeyIndex := Fin 16

end Sys2Proof
end

