-- ==== Sys2Proof/Syntax.lean ====
section
/-! DEFINITION. The 34 instructions of spec/30_encoding.md R74, as the decoded variants of R75: one constructor
for each row of spec/opcode_table.json, in the table's order. The operand types are exactly the values the fields
of R14 hold, so that each value of Instr is one legal instruction word and no more. -/
namespace Sys2Proof

/-- A decoded instruction (R75): "a tagged variant (opcode family + operand fields)". -/
inductive Instr where
  /-- `00E0` CLS (R181). -/
  | cls
  /-- `00EE` RET (R141). -/
  | ret
  /-- `1NNN` JP nnn (R142). -/
  | jp (nnn : Addr12)
  /-- `2NNN` CALL nnn (R143). -/
  | call (nnn : Addr12)
  /-- `3XKK` SE Vx, kk (R146). -/
  | seImm (x : Reg) (kk : Byte)
  /-- `4XKK` SNE Vx, kk (R147). -/
  | sneImm (x : Reg) (kk : Byte)
  /-- `5XY0` SE Vx, Vy (R148). -/
  | seReg (x y : Reg)
  /-- `6XKK` LD Vx, kk (R111). -/
  | ldImm (x : Reg) (kk : Byte)
  /-- `7XKK` ADD Vx, kk (R112). -/
  | addImm (x : Reg) (kk : Byte)
  /-- `8XY0` LD Vx, Vy (R113). -/
  | ldReg (x y : Reg)
  /-- `8XY1` OR Vx, Vy (R114). -/
  | orReg (x y : Reg)
  /-- `8XY2` AND Vx, Vy (R115). -/
  | andReg (x y : Reg)
  /-- `8XY3` XOR Vx, Vy (R116). -/
  | xorReg (x y : Reg)
  /-- `8XY4` ADD Vx, Vy (R117). -/
  | addReg (x y : Reg)
  /-- `8XY5` SUB Vx, Vy (R118). -/
  | sub (x y : Reg)
  /-- `8XY6` SHR Vx (R119); `y` is decoded and not read. -/
  | shr (x y : Reg)
  /-- `8XY7` SUBN Vx, Vy (R120). -/
  | subn (x y : Reg)
  /-- `8XYE` SHL Vx (R121); `y` is decoded and not read. -/
  | shl (x y : Reg)
  /-- `9XY0` SNE Vx, Vy (R149). -/
  | sneReg (x y : Reg)
  /-- `ANNN` LD I, nnn (R161). -/
  | ldI (nnn : Addr12)
  /-- `BNNN` JP V0, nnn (R144). -/
  | jpV0 (nnn : Addr12)
  /-- `CXKK` RND Vx, kk (R122). -/
  | rnd (x : Reg) (kk : Byte)
  /-- `DXYN` DRW Vx, Vy, n (R182); `n` is a row count 0..15. -/
  | drw (x y : Reg) (n : Fin 16)
  /-- `EX9E` SKP Vx (R191). -/
  | skp (x : Reg)
  /-- `EXA1` SKNP Vx (R192). -/
  | sknp (x : Reg)
  /-- `FX07` LD Vx, DT (R194). -/
  | ldVxDt (x : Reg)
  /-- `FX0A` LD Vx, K (R193). -/
  | ldVxK (x : Reg)
  /-- `FX15` LD DT, Vx (R195). -/
  | ldDtVx (x : Reg)
  /-- `FX18` LD ST, Vx (R196). -/
  | ldStVx (x : Reg)
  /-- `FX1E` ADD I, Vx (R162). -/
  | addI (x : Reg)
  /-- `FX29` LD F, Vx (R163). -/
  | ldF (x : Reg)
  /-- `FX33` LD B, Vx (R164). -/
  | ldB (x : Reg)
  /-- `FX55` LD [I], Vx (R165). -/
  | ldMemVx (x : Reg)
  /-- `FX65` LD Vx, [I] (R166). -/
  | ldVxMem (x : Reg)
  deriving DecidableEq, Repr

end Sys2Proof
end

