-- ==== Sys2Proof/WellFormed.lean ====
section
/-! DEFINITION. Which words are instructions, written from the opcode map of spec/30_encoding.md R74 (mask and
match of each row) and independently of the decoder. The operand types of Instr admit exactly the values of the
encoding's fields (R72, R73), so no term of Instr is ill-formed; what can be ill-formed is an instruction WORD,
a row of the map, and the map as a whole, and each has its check here. -/
namespace Sys2Proof

/-- A row of the opcode map (R74): a word `w` is the instruction when `w & mask == match`. -/
structure OpcodeRow where
  mask     : Word
  value    : Word
  mnemonic : String
  deriving DecidableEq, Repr

/-- `w & mask == match` (R74). -/
def OpcodeRow.accepts (r : OpcodeRow) (w : Word) : Bool := w &&& r.mask == r.value

/-- "`match` is the word with every field bit zero" (R74): no bit outside the mask is set. -/
def OpcodeRow.wellFormed (r : OpcodeRow) : Bool := r.value &&& r.mask == r.value

/-- Two rows differ in a bit that both fix, so that no word matches both (R74). -/
def OpcodeRow.disjoint (r q : OpcodeRow) : Bool := (r.value ^^^ q.value) &&& r.mask &&& q.mask != 0#16

/-- The rows of families 0 to 9 of R74. -/
def opcodeRowsLow : List OpcodeRow := [
  ⟨0xFFFF#16, 0x00E0#16, "CLS"⟩,
  ⟨0xFFFF#16, 0x00EE#16, "RET"⟩,
  ⟨0xF000#16, 0x1000#16, "JP_nnn"⟩,
  ⟨0xF000#16, 0x2000#16, "CALL_nnn"⟩,
  ⟨0xF000#16, 0x3000#16, "SE_Vx__kk"⟩,
  ⟨0xF000#16, 0x4000#16, "SNE_Vx__kk"⟩,
  ⟨0xF00F#16, 0x5000#16, "SE_Vx__Vy"⟩,
  ⟨0xF000#16, 0x6000#16, "LD_Vx__kk"⟩,
  ⟨0xF000#16, 0x7000#16, "ADD_Vx__kk"⟩,
  ⟨0xF00F#16, 0x8000#16, "LD_Vx__Vy"⟩,
  ⟨0xF00F#16, 0x8001#16, "OR_Vx__Vy"⟩,
  ⟨0xF00F#16, 0x8002#16, "AND_Vx__Vy"⟩,
  ⟨0xF00F#16, 0x8003#16, "XOR_Vx__Vy"⟩,
  ⟨0xF00F#16, 0x8004#16, "ADD_Vx__Vy"⟩,
  ⟨0xF00F#16, 0x8005#16, "SUB_Vx__Vy"⟩,
  ⟨0xF00F#16, 0x8006#16, "SHR_Vx"⟩,
  ⟨0xF00F#16, 0x8007#16, "SUBN_Vx__Vy"⟩,
  ⟨0xF00F#16, 0x800E#16, "SHL_Vx"⟩,
  ⟨0xF00F#16, 0x9000#16, "SNE_Vx__Vy"⟩]

/-- The rows of families A to F of R74. -/
def opcodeRowsHigh : List OpcodeRow := [
  ⟨0xF000#16, 0xA000#16, "LD_I__nnn"⟩,
  ⟨0xF000#16, 0xB000#16, "JP_V0__nnn"⟩,
  ⟨0xF000#16, 0xC000#16, "RND_Vx__kk"⟩,
  ⟨0xF000#16, 0xD000#16, "DRW_Vx__Vy__n"⟩,
  ⟨0xF0FF#16, 0xE09E#16, "SKP_Vx"⟩,
  ⟨0xF0FF#16, 0xE0A1#16, "SKNP_Vx"⟩,
  ⟨0xF0FF#16, 0xF007#16, "LD_Vx__DT"⟩,
  ⟨0xF0FF#16, 0xF00A#16, "LD_Vx__K"⟩,
  ⟨0xF0FF#16, 0xF015#16, "LD_DT__Vx"⟩,
  ⟨0xF0FF#16, 0xF018#16, "LD_ST__Vx"⟩,
  ⟨0xF0FF#16, 0xF01E#16, "ADD_I__Vx"⟩,
  ⟨0xF0FF#16, 0xF029#16, "LD_F__Vx"⟩,
  ⟨0xF0FF#16, 0xF033#16, "LD_B__Vx"⟩,
  ⟨0xF0FF#16, 0xF055#16, "LD__I___Vx"⟩,
  ⟨0xF0FF#16, 0xF065#16, "LD_Vx___I"⟩]

/-- The 34 rows of R74, in the order of spec/opcode_table.json. -/
def opcodeTable : List OpcodeRow := opcodeRowsLow ++ opcodeRowsHigh

/-- Every row is well-formed and no two rows accept one word (R74). -/
abbrev tableWellFormed (t : List OpcodeRow) : Prop :=
  (∀ r ∈ t, r.wellFormed = true) ∧ t.Pairwise (fun r q => r.disjoint q = true)

/-- A word is an instruction when some row of R74 accepts it; the others are the illegal words of R76. -/
def wordWellFormed (w : Word) : Bool := opcodeTable.any (fun r => r.accepts w)

end Sys2Proof
end

