-- ==== Sys2Proof/Decode.lean ====
section
/-! DEFINITION. The decoder of spec/30_encoding.md R75 (total on every word and on any bytes, rejecting by name),
the fields of spec/00_scope.md R14, the byte order of a fetched word (R52, R70), and the encoder written from the
formats of R72 and the opcode map of R74. -/
namespace Sys2Proof

/-! ### Fields (R14, R71) -/

/-- The opcode family, `ins[15:12]`. -/
def fieldF (ins : Word) : BitVec 4 := ins.extractLsb' 12 4

/-- `x = ins[11:8]`, a register index. -/
def fieldX (ins : Word) : Reg := (ins.extractLsb' 8 4).toFin

/-- `y = ins[7:4]`, a register index. -/
def fieldY (ins : Word) : Reg := (ins.extractLsb' 4 4).toFin

/-- `n = ins[3:0]`, a 4-bit count. -/
def fieldN (ins : Word) : Fin 16 := (ins.extractLsb' 0 4).toFin

/-- `kk = ins[7:0]`, an 8-bit immediate. -/
def fieldKk (ins : Word) : Byte := ins.extractLsb' 0 8

/-- `nnn = ins[11:0]`, a 12-bit address. -/
def fieldNnn (ins : Word) : Addr12 := ins.extractLsb' 0 12

/-! ### Bytes of a word (R52, R70: first byte high-order) -/

/-- `hi : lo`, the word two fetched bytes make. -/
def wordOfBytes (hi lo : Byte) : Word := hi ++ lo

/-- The first byte of a word in memory. -/
def highByte (w : Word) : Byte := w.extractLsb' 8 8

/-- The second byte of a word in memory. -/
def lowByte (w : Word) : Byte := w.extractLsb' 0 8

/-! ### The decoder (R75) -/

/-- Why bytes are no instruction. -/
inductive DecodeReject where
  /-- The word is one of the illegal words of R76; it carries the raw 16-bit word. -/
  | unknownInstruction (ins : Word)
  /-- Fewer than the two bytes every instruction has (R70); a fetch never gives so few. -/
  | truncated
  deriving DecidableEq, Repr

/-- Family 8 (R75): the sub-opcode is the low nibble. -/
def decodeArith (ins : Word) : Except DecodeReject Instr :=
  match (fieldN ins).val with
  | 0x0 => .ok (.ldReg (fieldX ins) (fieldY ins))
  | 0x1 => .ok (.orReg (fieldX ins) (fieldY ins))
  | 0x2 => .ok (.andReg (fieldX ins) (fieldY ins))
  | 0x3 => .ok (.xorReg (fieldX ins) (fieldY ins))
  | 0x4 => .ok (.addReg (fieldX ins) (fieldY ins))
  | 0x5 => .ok (.sub (fieldX ins) (fieldY ins))
  | 0x6 => .ok (.shr (fieldX ins) (fieldY ins))
  | 0x7 => .ok (.subn (fieldX ins) (fieldY ins))
  | 0xE => .ok (.shl (fieldX ins) (fieldY ins))
  | _   => .error (.unknownInstruction ins)

/-- Family E (R75): the sub-opcode is the low byte. -/
def decodeKey (ins : Word) : Except DecodeReject Instr :=
  match (fieldKk ins).toNat with
  | 0x9E => .ok (.skp (fieldX ins))
  | 0xA1 => .ok (.sknp (fieldX ins))
  | _    => .error (.unknownInstruction ins)

/-- Family F (R75): the sub-opcode is the low byte. -/
def decodeMisc (ins : Word) : Except DecodeReject Instr :=
  match (fieldKk ins).toNat with
  | 0x07 => .ok (.ldVxDt (fieldX ins))
  | 0x0A => .ok (.ldVxK (fieldX ins))
  | 0x15 => .ok (.ldDtVx (fieldX ins))
  | 0x18 => .ok (.ldStVx (fieldX ins))
  | 0x1E => .ok (.addI (fieldX ins))
  | 0x29 => .ok (.ldF (fieldX ins))
  | 0x33 => .ok (.ldB (fieldX ins))
  | 0x55 => .ok (.ldMemVx (fieldX ins))
  | 0x65 => .ok (.ldVxMem (fieldX ins))
  | _    => .error (.unknownInstruction ins)

/-- `decode(ins)` of R75, with `Unknown` as the rejection `unknownInstruction`. -/
def decode (ins : Word) : Except DecodeReject Instr :=
  match (fieldF ins).toNat with
  | 0x0 =>
    if ins = 0x00E0#16 then .ok .cls
    else if ins = 0x00EE#16 then .ok .ret
    else .error (.unknownInstruction ins)
  | 0x1 => .ok (.jp (fieldNnn ins))
  | 0x2 => .ok (.call (fieldNnn ins))
  | 0x3 => .ok (.seImm (fieldX ins) (fieldKk ins))
  | 0x4 => .ok (.sneImm (fieldX ins) (fieldKk ins))
  | 0x5 => if (fieldN ins).val = 0 then .ok (.seReg (fieldX ins) (fieldY ins))
           else .error (.unknownInstruction ins)
  | 0x6 => .ok (.ldImm (fieldX ins) (fieldKk ins))
  | 0x7 => .ok (.addImm (fieldX ins) (fieldKk ins))
  | 0x8 => decodeArith ins
  | 0x9 => if (fieldN ins).val = 0 then .ok (.sneReg (fieldX ins) (fieldY ins))
           else .error (.unknownInstruction ins)
  | 0xA => .ok (.ldI (fieldNnn ins))
  | 0xB => .ok (.jpV0 (fieldNnn ins))
  | 0xC => .ok (.rnd (fieldX ins) (fieldKk ins))
  | 0xD => .ok (.drw (fieldX ins) (fieldY ins) (fieldN ins))
  | 0xE => decodeKey ins
  | 0xF => decodeMisc ins
  | _   => .error (.unknownInstruction ins)

/-- The decoder on bytes: "a decoder always consumes two bytes" (R70); it answers the instruction and the rest. -/
def decodeBytes : List Byte → Except DecodeReject (Instr × List Byte)
  | hi :: lo :: rest =>
    match decode (wordOfBytes hi lo) with
    | .ok i    => .ok (i, rest)
    | .error r => .error r
  | _ => .error .truncated

/-! ### The encoder (R72, R74) -/

/-- Format `NNN`: `f:nnn`. -/
def packNnn (f : BitVec 4) (nnn : Addr12) : Word := f ++ nnn

/-- Formats `XKK` and `XOP`: `f:x:kk`. -/
def packXkk (f : BitVec 4) (x : Reg) (kk : Byte) : Word := f ++ BitVec.ofFin (w := 4) x ++ kk

/-- Formats `XY0`, `XYS` and `XYN`: `f:x:y:n`. -/
def packXyn (f : BitVec 4) (x y : Reg) (n : Fin 16) : Word :=
  f ++ BitVec.ofFin (w := 4) x ++ BitVec.ofFin (w := 4) y ++ BitVec.ofFin (w := 4) n

/-- The word of an instruction (R74). -/
def encode : Instr → Word
  | .cls         => 0x00E0#16
  | .ret         => 0x00EE#16
  | .jp nnn      => packNnn 0x1#4 nnn
  | .call nnn    => packNnn 0x2#4 nnn
  | .seImm x kk  => packXkk 0x3#4 x kk
  | .sneImm x kk => packXkk 0x4#4 x kk
  | .seReg x y   => packXyn 0x5#4 x y 0x0
  | .ldImm x kk  => packXkk 0x6#4 x kk
  | .addImm x kk => packXkk 0x7#4 x kk
  | .ldReg x y   => packXyn 0x8#4 x y 0x0
  | .orReg x y   => packXyn 0x8#4 x y 0x1
  | .andReg x y  => packXyn 0x8#4 x y 0x2
  | .xorReg x y  => packXyn 0x8#4 x y 0x3
  | .addReg x y  => packXyn 0x8#4 x y 0x4
  | .sub x y     => packXyn 0x8#4 x y 0x5
  | .shr x y     => packXyn 0x8#4 x y 0x6
  | .subn x y    => packXyn 0x8#4 x y 0x7
  | .shl x y     => packXyn 0x8#4 x y 0xE
  | .sneReg x y  => packXyn 0x9#4 x y 0x0
  | .ldI nnn     => packNnn 0xA#4 nnn
  | .jpV0 nnn    => packNnn 0xB#4 nnn
  | .rnd x kk    => packXkk 0xC#4 x kk
  | .drw x y n   => packXyn 0xD#4 x y n
  | .skp x       => packXkk 0xE#4 x 0x9E#8
  | .sknp x      => packXkk 0xE#4 x 0xA1#8
  | .ldVxDt x    => packXkk 0xF#4 x 0x07#8
  | .ldVxK x     => packXkk 0xF#4 x 0x0A#8
  | .ldDtVx x    => packXkk 0xF#4 x 0x15#8
  | .ldStVx x    => packXkk 0xF#4 x 0x18#8
  | .addI x      => packXkk 0xF#4 x 0x1E#8
  | .ldF x       => packXkk 0xF#4 x 0x29#8
  | .ldB x       => packXkk 0xF#4 x 0x33#8
  | .ldMemVx x   => packXkk 0xF#4 x 0x55#8
  | .ldVxMem x   => packXkk 0xF#4 x 0x65#8

/-- The bytes of an instruction as they stand in memory, the first at the lower address (R52). -/
def encodeBytes (i : Instr) : List Byte := [highByte (encode i), lowByte (encode i)]

/-! ### The opcode table's numbering -/

/-- The instruction word of a row's bits: every bit above `nbits` is 0, and an instruction has 16 bits (R70). -/
def tableWord (nbits w : Nat) : Word := BitVec.ofNat 16 (w % 2 ^ nbits)

/-- The bytes of a row's word, laid out as the hardware stores them (R52), through the decoder. -/
def decodeTableWord (nbits w : Nat) : Option Instr :=
  match decodeBytes [highByte (tableWord nbits w), lowByte (tableWord nbits w)] with
  | .ok (i, _) => some i
  | .error _   => none

end Sys2Proof
end

