-- ==== Sys2Proof/Config.lean ====
section
/-! DEFINITION. The parameters of spec/00_scope.md R6 and the two values the spec leaves open: the place of the
font (FONT_BASE, decision D14) and the random byte of `CXKK` (R12, decision D16). The open values are opaque
constants with no body, so that a claim about the model holds for every value of them. -/
namespace Sys2Proof.Config

/-- `MEM_SIZE` (R6). -/
abbrev memSize : Nat := 4096

/-- The last address of the region the source calls reserved (R6, R56). -/
abbrev reservedEnd : Nat := 0x1FF

/-- `PROGRAM_BASE` (R6): where programs load and execution starts. -/
abbrev programBase : Nat := 0x200

/-- `MAX_PROGRAM_LEN` (R6): 0x200..0xFFF. -/
abbrev maxProgramLen : Nat := 0xE00

/-- `STACK_DEPTH` (R6). -/
abbrev stackDepth : Nat := 16

/-- `FONT_BASE`, the spec's OPEN parameter (R6): any of 0..432, which is exactly `FONT_BASE + 80 <= 0x200`.
A free value (log entry 1). -/
opaque fontBaseIndex : Fin 433

/-- The random bytes the host or the oracle supplies, the n-th draw at index n, "under no law" (R12).
A free value (log entry 2). -/
opaque hostRand8 : Nat → BitVec 8

end Sys2Proof.Config
end

