-- ==== Sys2Proof/Machine/State.lean ====
section
/-! DEFINITION. The state of the block: the tuple of spec/10_state.md R20 ("exactly this tuple, and nothing else
persists between commands"), one counter of the model's own, the reasons a step can stop (spec/60_exceptions.md
R210), and the state after reset (R39, spec/70_reset_and_hazards.md R240). -/
namespace Sys2Proof.Machine

/-- `MEM` (R20, R31): the bytes that differ from the reset contents, by strictly rising address. What an address
that is not listed reads as, and the canonical form, are `Memory.unlisted` and `Memory.wf`. -/
abbrev Memory := List Host.Cell

/-- `FB` (R34): 32 rows of 64 one-bit pixels. Bit `x` of row `y` is `FB[y][x]`, so that row after row the bits
stand in the row-major order of R34, bit number `y*64 + x`. -/
abbrev Frame := Vector (BitVec 64) 32

/-- The machine's state (R20). -/
structure State where
  /-- `MEM[0..4095]` (R31). -/
  mem : Memory
  /-- `V[0..15]`, V0 to VF (R22, R23). -/
  v : Vector Byte 16
  /-- `I` (R25). -/
  i : Word
  /-- `PC` (R26). -/
  pc : Word
  /-- `SP`, the number of addresses on the stack, legal 0..16 (R28). -/
  sp : Byte
  /-- `STACK[0..15]` (R28, R29). -/
  stack : Vector Word 16
  /-- `DT`, the delay timer (R32). -/
  dt : Byte
  /-- `ST`, the sound timer (R32). -/
  st : Byte
  /-- `FB[0..31][0..63]` (R34). -/
  fb : Frame
  /-- `KEY[0..15]`, true when pressed (R35). -/
  key : Vector Bool 16
  /-- The MODEL's own field, not the spec's: how many random bytes have been drawn, the index of the next free
  value of `Config.hostRand8` (log entry 2). -/
  randDraws : Nat
  deriving DecidableEq, Repr

/-- The engine errors of R210, and one stop of the model's own. Each ends the step and commits nothing (R97). -/
inductive Fault where
  /-- Raised by a fetch above 0xFFE, by `DXYN`, `FX33`, `FX55`, `FX65` with the lowest address above 0xFFF they would
  touch, and by `1NNN`, `2NNN`, `00EE`, `BNNN` with a target above 0xFFE (R210). The spec's own stop: safe. -/
  | addressOutOfBounds (addr : Nat)
  /-- Raised by `2NNN` with SP = 16 (R143). The spec's own stop: safe. -/
  | stackOverflow
  /-- Raised by `00EE` with SP = 0 (R141). The spec's own stop: safe. -/
  | stackUnderflow
  /-- Raised by every illegal word of R76, with the raw word (R93). The spec's own stop: safe. -/
  | unknownInstruction (ins : Word)
  /-- Raised by a fetch at an odd PC and by `1NNN`, `2NNN`, `00EE`, `BNNN` with an odd target (R210). The spec's own
  stop: safe. -/
  | misalignedPc (addr : Nat)
  /-- The MODEL's own, DESIGN CHOICE (log entry 3): raised by `2NNN` and `00EE` in a state with SP > 16, which R28
  calls no legal state and which no command reaches. A stop where the spec gives no effect: safe. -/
  | spOutOfRange (sp : Byte)
  deriving DecidableEq, Repr

/-- Why a step has no meaning. -/
inductive Refusal where
  /-- Raised by `exec` alone, for an instruction that has no meaning yet: safe. No arm of this model uses it. -/
  | notModelled (mnemonic : String)
  deriving DecidableEq, Repr

/-- The state after reset (R39): PC at the program entry 0x200, memory at its reset contents (nothing listed),
everything else zero. "No state is left unspecified by reset." The counter of draws starts at 0: DESIGN CHOICE
(log entry 2). -/
def State.reset : State where
  mem := []
  v := Vector.replicate 16 0#8
  i := 0#16
  pc := 0x0200#16
  sp := 0#8
  stack := Vector.replicate 16 0#16
  dt := 0#8
  st := 0#8
  fb := Vector.replicate 32 0#64
  key := Vector.replicate 16 false
  randDraws := 0

end Sys2Proof.Machine
end

