-- ==== Sys2Proof/Machine/Memory.lean ====
section
/-! DEFINITION. The byte store of spec/20_memory.md and the font of spec/10_state.md R31: what an address reads as
after reset, reading and writing one byte, a run of bytes, and the canonical form of the list that holds them. -/
namespace Sys2Proof.Machine

/-- The glyphs of the digits 0 to 7, five bytes each (R31). -/
def fontGlyphsLow : List Byte := [
  0xF0#8, 0x90#8, 0x90#8, 0x90#8, 0xF0#8,   0x20#8, 0x60#8, 0x20#8, 0x20#8, 0x70#8,
  0xF0#8, 0x10#8, 0xF0#8, 0x80#8, 0xF0#8,   0xF0#8, 0x10#8, 0xF0#8, 0x10#8, 0xF0#8,
  0x90#8, 0x90#8, 0xF0#8, 0x10#8, 0x10#8,   0xF0#8, 0x80#8, 0xF0#8, 0x10#8, 0xF0#8,
  0xF0#8, 0x80#8, 0xF0#8, 0x90#8, 0xF0#8,   0xF0#8, 0x10#8, 0x20#8, 0x40#8, 0x40#8]

/-- The glyphs of the digits 8 to F, five bytes each (R31). -/
def fontGlyphsHigh : List Byte := [
  0xF0#8, 0x90#8, 0xF0#8, 0x90#8, 0xF0#8,   0xF0#8, 0x90#8, 0xF0#8, 0x10#8, 0xF0#8,
  0xF0#8, 0x90#8, 0xF0#8, 0x90#8, 0x90#8,   0xE0#8, 0x90#8, 0xE0#8, 0x90#8, 0xE0#8,
  0xF0#8, 0x80#8, 0x80#8, 0x80#8, 0xF0#8,   0xE0#8, 0x90#8, 0x90#8, 0x90#8, 0xE0#8,
  0xF0#8, 0x80#8, 0xF0#8, 0x80#8, 0xF0#8,   0xF0#8, 0x80#8, 0xF0#8, 0x80#8, 0x80#8]

/-- The font table of R31: digit `d` at offset `5*d`. -/
def fontGlyphs : List Byte := fontGlyphsLow ++ fontGlyphsHigh

/-- `FONT_BASE` (R6), any address with `FONT_BASE + 80 <= 0x200`. -/
def fontBase : Nat := Config.fontBaseIndex.val

/-- What an address that is not listed reads as: the reset contents of R39, the font and zeros. (Addresses from
0x200 up are told apart first, because FONT_BASE has no known value.) -/
def Memory.unlisted (a : Nat) : Byte :=
  if Config.reservedEnd < a then 0#8
  else if fontBase ≤ a then fontGlyphs.getD (a - fontBase) 0#8
  else 0#8

/-- `MEM[a]`. -/
def Memory.read : Memory → Nat → Byte
  | [], a => Memory.unlisted a
  | (k, b) :: rest, a => if a = k then b else Memory.read rest a

/-- `MEM[a] <- b`, in the canonical form: writing what an unlisted address reads as removes the entry. -/
def Memory.write : Memory → Nat → Byte → Memory
  | [], a, b => if b = Memory.unlisted a then [] else [(a, b)]
  | (k, c) :: rest, a, b =>
    if a < k then
      if b = Memory.unlisted a then (k, c) :: rest else (a, b) :: (k, c) :: rest
    else if a = k then
      if b = Memory.unlisted a then rest else (a, b) :: rest
    else (k, c) :: Memory.write rest a b

/-- `MEM[a], MEM[a+1], .. <- bs`, one byte at a time (R55). -/
def Memory.store (m : Memory) (a : Nat) : List Byte → Memory
  | [] => m
  | b :: bs => Memory.store (m.write a b) (a + 1) bs

/-- `MEM[a .. a+n-1]`. -/
def Memory.load (m : Memory) (a n : Nat) : List Byte :=
  (List.range n).map (fun k => m.read (a + k))

/-- The memory whose bytes from `a` up are `bs`, and which is as after reset elsewhere. -/
def Memory.ofBytes (a : Nat) : List Byte → Memory
  | [] => []
  | b :: bs => if b = Memory.unlisted a then Memory.ofBytes (a + 1) bs else (a, b) :: Memory.ofBytes (a + 1) bs

/-- The entries stand at strictly rising addresses from `lo` up, all inside the 4096 bytes, and none holds what
its address reads as when it is not listed. -/
def Memory.wfFrom (lo : Nat) : Memory → Bool
  | [] => true
  | (k, b) :: rest =>
    decide (lo ≤ k) && decide (k < Config.memSize) && (b != Memory.unlisted k) && Memory.wfFrom (k + 1) rest

/-- The canonical form of memory: equal memories are equal lists. -/
def Memory.wf (m : Memory) : Bool := Memory.wfFrom 0 m

end Sys2Proof.Machine
end

