-- ==== Sys2Proof/Machine/Ops.lean ====
section
/-! DEFINITION. The operations every instruction is made of: the outcome of a step, taking an engine error (the
block's only exception mechanism, spec/60_exceptions.md R210 to R215), register and PC writes (spec/40_engine.md
R95), the control-transfer check (spec/00_scope.md R13), the stack (spec/10_state.md R28), the check of a memory
access (spec/20_memory.md R53, R54) and the fetch (spec/40_engine.md R92). -/
namespace Sys2Proof.Machine

/-- The outcome of a step. -/
abbrev Result := Host.Outcome State Fault Refusal

/-- TAKING AN EXCEPTION. An engine error is "precise and changes nothing": nothing is saved anywhere, "no mode
changes, and control does not go to any handler address: the error is returned to the host" (R214). None of the
writes of the step are committed (R11), and there is no return from an error (R215). -/
def raise (e : Fault) : Result := .fault e

/-! ### Registers -/

/-- `V[x]` (R9). -/
def State.reg (s : State) (x : Reg) : Byte := s.v[x.val]

/-- `V[x] <- b` (R9). No register is hardwired (R22). -/
def State.setReg (s : State) (x : Reg) (b : Byte) : State := { s with v := s.v.set x.val b }

/-- `I <- w`. -/
def State.setI (s : State) (w : Word) : State := { s with i := w }

/-- `PC <- w`. -/
def State.setPc (s : State) (w : Word) : State := { s with pc := w }

/-- `DT <- b`. -/
def State.setDt (s : State) (b : Byte) : State := { s with dt := b }

/-- `ST <- b`. -/
def State.setSt (s : State) (b : Byte) : State := { s with st := b }

/-- `FB <- f`. -/
def State.setFb (s : State) (f : Frame) : State := { s with fb := f }

/-- `KEY[k] <- p`. -/
def State.setKey (s : State) (k : KeyIndex) (p : Bool) : State := { s with key := s.key.set k.val p }

/-- `MEM <- m`. -/
def State.setMem (s : State) (m : Memory) : State := { s with mem := m }

/-- One more random byte has been drawn: the next draw reads the next free value (log entry 2). -/
def State.countDraw (s : State) : State := { s with randDraws := s.randDraws + 1 }

/-! ### How PC advances (R95) -/

/-- Sequential: `PC <- PC + 2`. The advance is not checked (R95); a fetch allows only `PC <= 0xFFE`, from where the
sum does not wrap (log entry 4). -/
def State.advance (s : State) : State := { s with pc := s.pc + 2#16 }

/-- Skip: `PC <- PC + 4` if the condition holds, else `PC <- PC + 2` (R145); not checked either. -/
def State.skipIf (s : State) (cond : Bool) : State := { s with pc := s.pc + if cond then 4#16 else 2#16 }

/-- Direct: `checkTarget(t); PC <- t` (R13, R140). The range check comes before the parity check. -/
def jumpTo (t : Nat) (s : State) : Result :=
  if 0xFFE < t then raise (.addressOutOfBounds t)
  else if t % 2 = 1 then raise (.misalignedPc t)
  else .next (s.setPc (BitVec.ofNat 16 t))

/-! ### The stack (R28) -/

/-- `push(addr)` and then the rest of the instruction. With SP > 16, no legal state, the model stops under a name
of its own (log entry 3). -/
def pushThen (addr : Word) (rest : State → Result) (s : State) : Result :=
  if h : s.sp.toNat < 16 then
    rest { s with stack := s.stack.set s.sp.toNat addr h, sp := s.sp + 1#8 }
  else if s.sp.toNat = 16 then raise .stackOverflow
  else raise (.spOutOfRange s.sp)

/-- `pop()` and then the rest of the instruction, which is given the popped address. The entry is not cleared
(R29). -/
def popThen (rest : Word → State → Result) (s : State) : Result :=
  if s.sp.toNat = 0 then raise .stackUnderflow
  else if h : s.sp.toNat ≤ 16 then
    rest (s.stack[s.sp.toNat - 1]'(by omega)) { s with sp := s.sp - 1#8 }
  else raise (.spOutOfRange s.sp)

/-! ### Memory accesses -/

/-- The lowest address above 0xFFF among `a .. a+n-1`, given that there is one (R54). -/
def firstOutOfBounds (a : Nat) : Nat := max a Config.memSize

/-- All `n` addresses `a .. a+n-1` of an instruction are checked before any effect: if one is above 0xFFF the
instruction raises `AddressOutOfBounds` with the lowest such address (R53, R54), else it goes on. -/
def accessThen (a n : Nat) (rest : Result) : Result :=
  if n = 0 ∨ a + n ≤ Config.memSize then rest
  else raise (.addressOutOfBounds (firstOutOfBounds a))

/-- `MemRead(addr, 1)` (R10). -/
def memRead (m : Memory) (a : Nat) : Except Fault Byte :=
  if a ≤ 0xFFF then .ok (m.read a) else .error (.addressOutOfBounds a)

/-! ### Fetch and decode (R91 to R93) -/

/-- `fetch()` (R92): the high byte at PC, the low byte at PC + 1, then the parity of PC. -/
def fetch (s : State) : Except Fault Word :=
  match memRead s.mem s.pc.toNat with
  | .error e => .error e
  | .ok hi =>
    match memRead s.mem (s.pc.toNat + 1) with
    | .error e => .error e
    | .ok lo =>
      if s.pc.toNat % 2 = 1 then .error (.misalignedPc s.pc.toNat)
      else .ok (wordOfBytes hi lo)

/-- The instruction at PC: a fetch error, `UnknownInstruction` with the raw word (R93), or the decoded variant. -/
def fetchDecode (s : State) : Except Fault Instr :=
  match fetch s with
  | .error e => .error e
  | .ok ins =>
    match decode ins with
    | .error _ => .error (.unknownInstruction ins)
    | .ok i => .ok i

/-- The number R211 assigns to an engine error, 1 to 5; the model's own stop has none. (6, `RestoreError`, is no step
result: `Reply.errorCode`.) -/
def Fault.code : Fault → Option Nat
  | .addressOutOfBounds _ => some 1
  | .stackOverflow        => some 2
  | .stackUnderflow       => some 3
  | .unknownInstruction _ => some 4
  | .misalignedPc _       => some 5
  | .spOutOfRange _       => none

end Sys2Proof.Machine
end

