-- ==== Sys2Proof/Machine/Operands.lean ====
section
/-! DEFINITION. The operand forms: the immediates and indices of an instruction as numbers (spec/30_encoding.md
R73), the register-indirect addresses through I (spec/43_index_memory.md R160), the jump with offset (R144), the
glyph address (R163), the key index (spec/45_input_timers.md R190), the sprite coordinates (spec/44_display.md
R182), the decimal digits (R164) and the register ranges of `FX55` and `FX65` (R165, R166). -/
namespace Sys2Proof.Machine

/-- A 12-bit address, zero-extended to 16 bits where it is written to I (R73, R161). -/
def zext16 (nnn : Addr12) : Word := nnn.setWidth 16

/-- The effective address of data accesses, `I`; the k-th byte is at `I + k` without wrap (R160). -/
def State.dataAddress (s : State) : Nat := s.i.toNat

/-- The target of `BNNN`: `nnn + V[0]`, not reduced (R144). -/
def State.offsetTarget (s : State) (nnn : Addr12) : Nat := nnn.toNat + (s.reg 0).toNat

/-- The return address a call pushes: "the address after the call, `PC + 2`" (R143). -/
def State.returnAddress (s : State) : Word := s.pc + 2#16

/-- The low nibble of a register's value. -/
def lowNibble (b : Byte) : Fin 16 := ⟨b.toNat % 16, Nat.mod_lt _ (by decide)⟩

/-- The key a register names: `V[x] & 0x0F` (R190). -/
def State.keyOf (s : State) (x : Reg) : KeyIndex := lowNibble (s.reg x)

/-- `KEY[k]`. -/
def State.pressed (s : State) (k : KeyIndex) : Bool := s.key[k.val]

/-- The address of the glyph of a hex digit: `FONT_BASE + 5 * (V[x] & 0x0F)` (R163). -/
def glyphAddress (b : Byte) : Word := BitVec.ofNat 16 (fontBase + 5 * (lowNibble b).val)

/-- The sprite's left column, `V[x] mod 64` (R182). -/
def State.spriteX (s : State) (x : Reg) : Nat := (s.reg x).toNat % 64

/-- The sprite's top row, `V[y] mod 32` (R182). -/
def State.spriteY (s : State) (y : Reg) : Nat := (s.reg y).toNat % 32

/-- Hundreds, tens and ones of a register's value (R164). -/
def decimalDigits (b : Byte) : List Byte :=
  [BitVec.ofNat 8 (b.toNat / 100), BitVec.ofNat 8 (b.toNat / 10 % 10), BitVec.ofNat 8 (b.toNat % 10)]

/-- `V[0] .. V[x]` inclusive (R165). -/
def State.regsUpTo (s : State) (x : Reg) : List Byte := s.v.toList.take (x.val + 1)

/-- `V[0], V[1], .. <- bs`; the registers past the end of `bs` keep their values (R166). -/
def State.setRegs (s : State) (bs : List Byte) : State :=
  { s with v := Vector.ofFn (fun j : Fin 16 => (bs[j.val]?).getD s.v[j.val]) }

/-- The least key that is pressed (R193). -/
def State.firstPressed (s : State) : Option KeyIndex := (List.finRange 16).find? (fun k => s.pressed k)

end Sys2Proof.Machine
end

