-- ==== Sys2Proof/Machine/Flags.lean ====
section
/-! DEFINITION. The flag computations: VF is the only flag (spec/10_state.md R24), written as 0 or 1 by `8XY4`,
`8XY5`, `8XY6`, `8XY7`, `8XYE` (spec/41_alu.md R117 to R121) and `DXYN` (spec/44_display.md R182), after the
result (R110). -/
namespace Sys2Proof.Machine

/-- The index of VF (R9). -/
abbrev vf : Reg := 15

/-- A flag as the register value 1 or 0. -/
def flagByte (b : Bool) : Byte := if b then 1#8 else 0#8

/-- `V[0xF] <- flag`. -/
def State.setFlag (s : State) (flag : Bool) : State := s.setReg vf (flagByte flag)

/-- "the result is written to `V[x]`; then ... the flag is written to `VF`" (R110): with x = 0xF the flag stays. -/
def State.setRegFlag (s : State) (x : Reg) (result : Byte) (flag : Bool) : State :=
  (s.setReg x result).setFlag flag

/-- The unsigned sum exceeds 255 (R117). -/
def carryOut (a b : Byte) : Bool := decide (0xFF < a.toNat + b.toNat)

/-- `a - b` needs no borrow: `a >= b` (R118, R120). -/
def noBorrow (a b : Byte) : Bool := decide (b.toNat ≤ a.toNat)

/-- The bit a right shift by one shifts out, old bit 0 (R119). -/
def shiftedOutRight (t : Byte) : Bool := t.getLsbD 0

/-- The bit a left shift by one shifts out, old bit 7 (R121). -/
def shiftedOutLeft (t : Byte) : Bool := t.getLsbD 7

end Sys2Proof.Machine
end

