-- ==== Sys2Proof/Machine/Alu.lean ====
section
/-! DEFINITION. The ALU instructions (spec/41_alu.md R110 to R123): operands are read before anything is written,
the result goes to V[x], then the flag to VF, and PC advances by 2. None raises an error. -/
namespace Sys2Proof.Machine

/-- `6XKK` LD Vx, kk (R111). -/
def execLdImm (x : Reg) (kk : Byte) (s : State) : Result := .next (s.setReg x kk).advance

/-- `7XKK` ADD Vx, kk (R112): modulo 2^8, no carry. -/
def execAddImm (x : Reg) (kk : Byte) (s : State) : Result := .next (s.setReg x (s.reg x + kk)).advance

/-- `8XY0` LD Vx, Vy (R113). -/
def execLdReg (x y : Reg) (s : State) : Result := .next (s.setReg x (s.reg y)).advance

/-- `8XY1` OR Vx, Vy (R114): VF is not reset. -/
def execOrReg (x y : Reg) (s : State) : Result := .next (s.setReg x (s.reg x ||| s.reg y)).advance

/-- `8XY2` AND Vx, Vy (R115): VF is not reset. -/
def execAndReg (x y : Reg) (s : State) : Result := .next (s.setReg x (s.reg x &&& s.reg y)).advance

/-- `8XY3` XOR Vx, Vy (R116): VF is not reset. -/
def execXorReg (x y : Reg) (s : State) : Result := .next (s.setReg x (s.reg x ^^^ s.reg y)).advance

/-- `8XY4` ADD Vx, Vy (R117): VF is the carry. -/
def execAddReg (x y : Reg) (s : State) : Result :=
  .next (s.setRegFlag x (s.reg x + s.reg y) (carryOut (s.reg x) (s.reg y))).advance

/-- `8XY5` SUB Vx, Vy (R118): VF is 1 when `V[x] >= V[y]`. -/
def execSub (x y : Reg) (s : State) : Result :=
  .next (s.setRegFlag x (s.reg x - s.reg y) (noBorrow (s.reg x) (s.reg y))).advance

/-- `8XY6` SHR Vx (R119): shifts `V[x]` in place; `V[y]` is not read (decision D5). -/
def execShr (x _y : Reg) (s : State) : Result :=
  .next (s.setRegFlag x (s.reg x >>> 1) (shiftedOutRight (s.reg x))).advance

/-- `8XY7` SUBN Vx, Vy (R120): VF is 1 when `V[y] >= V[x]`. -/
def execSubn (x y : Reg) (s : State) : Result :=
  .next (s.setRegFlag x (s.reg y - s.reg x) (noBorrow (s.reg y) (s.reg x))).advance

/-- `8XYE` SHL Vx (R121): shifts `V[x]` in place; `V[y]` is not read (decision D5). -/
def execShl (x _y : Reg) (s : State) : Result :=
  .next (s.setRegFlag x (s.reg x <<< 1) (shiftedOutLeft (s.reg x))).advance

/-- `CXKK` RND Vx, kk with the byte `rand8` the host supplies to the step (R122). -/
def rndWith (rand8 : Byte) (x : Reg) (kk : Byte) (s : State) : Result :=
  .next (s.setReg x (rand8 &&& kk)).advance

/-- `CXKK` RND Vx, kk (R122) with the next byte of the free stream, which is then used up (log entry 2). -/
def execRnd (x : Reg) (kk : Byte) (s : State) : Result :=
  rndWith (Config.hostRand8 s.randDraws) x kk s.countDraw

end Sys2Proof.Machine
end

