-- ==== Sys2Proof/Machine/Control.lean ====
section
/-! DEFINITION. The control-transfer instructions (spec/42_control.md R140 to R149). -/
namespace Sys2Proof.Machine

/-- `00EE` RET (R141): pop, check the target, go there; nothing is committed if either raises. -/
def execRet (s : State) : Result := popThen (fun t => jumpTo t.toNat) s

/-- `1NNN` JP nnn (R142). -/
def execJp (nnn : Addr12) (s : State) : Result := jumpTo nnn.toNat s

/-- `2NNN` CALL nnn (R143): overflow first, then the target's checks, then the push and the jump. -/
def execCall (nnn : Addr12) (s : State) : Result := pushThen s.returnAddress (jumpTo nnn.toNat) s

/-- `BNNN` JP V0, nnn (R144): always V0 (decision D7). -/
def execJpV0 (nnn : Addr12) (s : State) : Result := jumpTo (s.offsetTarget nnn) s

/-- `3XKK` SE Vx, kk (R146). -/
def execSeImm (x : Reg) (kk : Byte) (s : State) : Result := .next (s.skipIf (s.reg x == kk))

/-- `4XKK` SNE Vx, kk (R147). -/
def execSneImm (x : Reg) (kk : Byte) (s : State) : Result := .next (s.skipIf (s.reg x != kk))

/-- `5XY0` SE Vx, Vy (R148). -/
def execSeReg (x y : Reg) (s : State) : Result := .next (s.skipIf (s.reg x == s.reg y))

/-- `9XY0` SNE Vx, Vy (R149). -/
def execSneReg (x y : Reg) (s : State) : Result := .next (s.skipIf (s.reg x != s.reg y))

end Sys2Proof.Machine
end

