-- ==== Sys2Proof/Machine/Display.lean ====
section
/-! DEFINITION. The framebuffer instructions (spec/44_display.md R180 to R182): pixels and the sprite loop of R182. -/
namespace Sys2Proof.Machine

/-- The framebuffer with no pixel lit. -/
def Frame.blank : Frame := Vector.replicate 32 0#64

/-- `FB[y mod 32][x mod 64]`. -/
def Frame.pixel (fb : Frame) (x y : Nat) : Bool :=
  (fb[y % 32]'(Nat.mod_lt _ (by decide))).getLsbD (x % 64)

/-- `FB[y mod 32][x mod 64] <- FB[y mod 32][x mod 64] xor 1`. -/
def Frame.flip (fb : Frame) (x y : Nat) : Frame :=
  have h : y % 32 < 32 := Nat.mod_lt _ (by decide)
  fb.set (y % 32) (fb[y % 32] ^^^ (1#64 <<< (x % 64))) h

/-- The working copy of a draw (R182): the framebuffer and `hit`. -/
structure Canvas where
  fb  : Frame
  hit : Bool
  deriving DecidableEq, Repr

/-- The body of the inner loop (R182) for column `c` of a sprite row that is drawn at row `py`: "bit 7 is the
leftmost pixel". Columns and rows wrap (`Frame.pixel` and `Frame.flip` reduce them). -/
def plot (row : Byte) (x0 py : Nat) (d : Canvas) (c : Nat) : Canvas :=
  if row.getLsbD (7 - c) then ⟨d.fb.flip (x0 + c) py, d.hit || d.fb.pixel (x0 + c) py⟩ else d

/-- The inner loop, `for c in 0 .. 7`. -/
def drawRow (row : Byte) (x0 py : Nat) (d : Canvas) : Canvas :=
  [0, 1, 2, 3, 4, 5, 6, 7].foldl (plot row x0 py) d

/-- The outer loop, `for r in 0 .. n-1`, the rows from `py` down. -/
def drawRows (x0 : Nat) : Nat → List Byte → Canvas → Canvas
  | _, [], d => d
  | py, row :: rows, d => drawRows x0 (py + 1) rows (drawRow row x0 py d)

/-- The sprite bytes of `DXYN`: the `n` bytes at I, all read before any pixel changes (R182). -/
def State.spriteRows (s : State) (n : Fin 16) : List Byte := s.mem.load s.dataAddress n.val

/-- `00E0` CLS (R181). -/
def execCls (s : State) : Result := .next (s.setFb Frame.blank).advance

/-- The effect of `DXYN` once its addresses are checked: the drawn frame and VF = hit (R182). -/
def State.draw (s : State) (x y : Reg) (n : Fin 16) : State :=
  let d := drawRows (s.spriteX x) (s.spriteY y) (s.spriteRows n) ⟨s.fb, false⟩
  (s.setFb d.fb).setFlag d.hit

/-- `DXYN` DRW Vx, Vy, n (R182). -/
def execDrw (x y : Reg) (n : Fin 16) (s : State) : Result :=
  accessThen s.dataAddress n.val (.next (s.draw x y n).advance)

end Sys2Proof.Machine
end

