-- ==== Sys2Proof/Machine/IndexMemory.lean ====
section
/-! DEFINITION. The index-register and memory instructions (spec/43_index_memory.md R160 to R166). An access never
changes I (decision D6), and its addresses are all checked before any effect (spec/20_memory.md R54). -/
namespace Sys2Proof.Machine

/-- `ANNN` LD I, nnn (R161). -/
def execLdI (nnn : Addr12) (s : State) : Result := .next (s.setI (zext16 nnn)).advance

/-- `FX1E` ADD I, Vx (R162): modulo 2^16, VF unchanged. -/
def execAddI (x : Reg) (s : State) : Result := .next (s.setI (s.i + (s.reg x).setWidth 16)).advance

/-- `FX29` LD F, Vx (R163). -/
def execLdF (x : Reg) (s : State) : Result := .next (s.setI (glyphAddress (s.reg x))).advance

/-- `FX33` LD B, Vx (R164): hundreds at I, tens at I+1, ones at I+2. -/
def execLdB (x : Reg) (s : State) : Result :=
  accessThen s.dataAddress 3
    (.next (s.setMem (s.mem.store s.dataAddress (decimalDigits (s.reg x)))).advance)

/-- `FX55` LD [I], Vx (R165): stores V0 to Vx. -/
def execLdMemVx (x : Reg) (s : State) : Result :=
  accessThen s.dataAddress (x.val + 1)
    (.next (s.setMem (s.mem.store s.dataAddress (s.regsUpTo x))).advance)

/-- `FX65` LD Vx, [I] (R166): loads V0 to Vx. -/
def execLdVxMem (x : Reg) (s : State) : Result :=
  accessThen s.dataAddress (x.val + 1)
    (.next (s.setRegs (s.mem.load s.dataAddress (x.val + 1))).advance)

end Sys2Proof.Machine
end

