-- ==== Sys2Proof/Machine/InputTimer.lean ====
section
/-! DEFINITION. The key and timer instructions (spec/45_input_timers.md R190 to R196), the sound output
(spec/10_state.md R33) and the timer tick (spec/60_exceptions.md R221). -/
namespace Sys2Proof.Machine

/-- `EX9E` SKP Vx (R191): the key flag is read, not cleared. -/
def execSkp (x : Reg) (s : State) : Result := .next (s.skipIf (s.pressed (s.keyOf x)))

/-- `EXA1` SKNP Vx (R192). -/
def execSknp (x : Reg) (s : State) : Result := .next (s.skipIf (!s.pressed (s.keyOf x)))

/-- `FX0A` LD Vx, K (R193): the least pressed key goes to V[x] and its press is consumed; with no key pressed the
step is `WaitingForKey` and no state changes, PC included (log entry 6). -/
def execLdVxK (x : Reg) (s : State) : Result :=
  match s.firstPressed with
  | some k => .next ((s.setReg x (BitVec.ofNat 8 k.val)).setKey k false).advance
  | none   => .next s

/-- `FX07` LD Vx, DT (R194). -/
def execLdVxDt (x : Reg) (s : State) : Result := .next (s.setReg x s.dt).advance

/-- `FX15` LD DT, Vx (R195). -/
def execLdDtVx (x : Reg) (s : State) : Result := .next (s.setDt (s.reg x)).advance

/-- `FX18` LD ST, Vx (R196). -/
def execLdStVx (x : Reg) (s : State) : Result := .next (s.setSt (s.reg x)).advance

/-- `sound_on = (ST != 0)` (R33). -/
def State.soundOn (s : State) : Bool := s.st != 0#8

/-- One timer's part of a tick: "decrements by 1 when non-zero" (R221). -/
def tickDown (t : Byte) : Byte := if t = 0#8 then 0#8 else t - 1#8

/-- `tick_timers()` (R221). -/
def State.tickTimers (s : State) : State := (s.setDt (tickDown s.dt)).setSt (tickDown s.st)

end Sys2Proof.Machine
end

