-- ==== Sys2Proof/Machine/Step.lean ====
section
/-! DEFINITION. One step (spec/40_engine.md R91): fetch, decode, execute, at most one instruction, one atomic
update; and the state in which a given instruction word stands where the next step fetches. -/
namespace Sys2Proof.Machine

/-- `step` (R91). -/
def step (s : State) : Host.Outcome State Fault Refusal :=
  match fetchDecode s with
  | .error e => raise e
  | .ok i => exec i s

/-- `s` with the instruction word of an opcode-table row stored at PC, PC + 1, where the next step fetches (R52).
A program comes to run from reset by a `load_program` from outside (R243, log entry 7), for which this stands. -/
def State.withFetchWord (s : State) (nbits w : Nat) : State :=
  s.setMem (s.mem.store s.pc.toNat [highByte (tableWord nbits w), lowByte (tableWord nbits w)])

end Sys2Proof.Machine
end

