-- ==== Sys2Proof/Machine/HostInterface.lean ====
section
/-! DEFINITION. The commands by which the host drives the block (spec/40_engine.md R90, R96, R99 to R104;
spec/60_exceptions.md R212, R221; spec/70_reset_and_hazards.md R240). Each is one atomic function of the state, and
any sequence of them is a run (R247). `Sys2Proof.Machine.step` is the `step` command with the byte of the free
stream. -/
namespace Sys2Proof.Machine

/-- What `get_registers` shows (R102). -/
structure RegisterView where
  v     : Vector Byte 16
  i     : Word
  pc    : Word
  sp    : Byte
  stack : Vector Word 16
  dt    : Byte
  st    : Byte
  deriving DecidableEq, Repr

/-- A snapshot (R103, R104): the tuple of R20 as lists, so that one of a wrong size can be written down and is
rejected (log entry 9). The model's own counter is no part of it. -/
structure Snapshot where
  mem   : List Byte
  v     : List Byte
  i     : Word
  pc    : Word
  sp    : Byte
  stack : List Word
  dt    : Byte
  st    : Byte
  fb    : List (BitVec 64)
  key   : List Bool
  deriving DecidableEq, Repr

/-- The host's commands (R90). -/
inductive Command where
  /-- `reset()` (R240). -/
  | reset
  /-- `load_program(bytes)` (R99). -/
  | loadProgram (bytes : List Byte)
  /-- `step(rand8)` (R91); the byte is read only by `CXKK`. -/
  | step (rand8 : Byte)
  /-- `tick_timers()` (R221). -/
  | tickTimers
  /-- `set_key(k, pressed)` (R101). -/
  | setKey (k : KeyIndex) (pressed : Bool)
  /-- `get_framebuffer()` (R100). -/
  | getFramebuffer
  /-- `get_registers()` (R102). -/
  | getRegisters
  /-- `capture_state()` (R103). -/
  | captureState
  /-- `restore_state(s)` (R104); `none` is data that cannot be read as a snapshot. -/
  | restoreState (data : Option Snapshot)
  deriving DecidableEq, Repr

/-- What a command answers (R90, R96, R212). -/
inductive Reply where
  /-- Completed with nothing to report: `reset`, `load_program` ok, `tick_timers`, `set_key`, `restore_state` ok. -/
  | done
  /-- A step that "executed normally" (R96). -/
  | executed
  /-- A step that executed `FX0A` with no key pressed (R96). -/
  | waitingForKey
  /-- An engine error (R210), of a step or of `load_program`. -/
  | error (e : Fault)
  /-- `RestoreError` (R104); its number is in `Reply.errorCode`. -/
  | restoreError
  /-- The 2048 pixel bits, row-major (R100). -/
  | framebuffer (bits : List Bool)
  /-- The register view (R102). -/
  | registers (view : RegisterView)
  /-- The snapshot (R103). -/
  | snapshot (snap : Snapshot)
  /-- A step without a meaning: no instruction of this model answers so. -/
  | refused (r : Refusal)
  deriving DecidableEq, Repr

/-- The number R211 assigns to the error a command answers: 1 to 5 for the engine errors (`Fault.code`), 6 for
`RestoreError`; none for an answer that is no error. -/
def Reply.errorCode : Reply → Option Nat
  | .error e       => e.code
  | .restoreError  => some 6
  | .done          => none
  | .executed      => none
  | .waitingForKey => none
  | .framebuffer _ => none
  | .registers _   => none
  | .snapshot _    => none
  | .refused _     => none

/-- Executing an instruction with the random byte of the step command (R91): only `CXKK` reads it. -/
def execWith (rand8 : Byte) (i : Instr) (s : State) : Result :=
  match i with
  | .rnd x kk => rndWith rand8 x kk s
  | j => exec j s

/-- The step is `WaitingForKey` "when it executed `FX0A` and no key was pressed ... and `Executed` otherwise"
(R96). -/
def waitsForKey (i : Instr) (s : State) : Bool :=
  match i with
  | .ldVxK _ => s.firstPressed.isNone
  | _ => false

/-- `step(rand8)` (R91, R96, R97): an error leaves every part of the state unchanged. -/
def stepCommand (rand8 : Byte) (s : State) : State × Reply :=
  match fetchDecode s with
  | .error e => (s, .error e)
  | .ok i =>
    match execWith rand8 i s with
    | .next t    => (t, if waitsForKey i s then .waitingForKey else .executed)
    | .fault e   => (s, .error e)
    | .refused r => (s, .refused r)

/-- `reset()` (R240): the state of R39. The bytes drawn so far stay drawn: the random stream is the host's and is
not rewound (log entry 2). -/
def resetCommand (s : State) : State := { State.reset with randDraws := s.randDraws }

/-- `load_program(bytes)` (R99): all of the program or nothing; only the bytes it covers change. -/
def loadProgram (bytes : List Byte) (s : State) : State × Reply :=
  if Config.maxProgramLen < bytes.length then (s, .error (.addressOutOfBounds 0x1000))
  else (s.setMem (s.mem.store Config.programBase bytes), .done)

/-- `get_framebuffer()` (R100): bit `y*64 + x` is `FB[y][x]`. -/
def framebufferBits (s : State) : List Bool :=
  (List.range 2048).map (fun k => s.fb.pixel (k % 64) (k / 64))

/-- `get_registers()` (R102). -/
def registerView (s : State) : RegisterView :=
  { v := s.v, i := s.i, pc := s.pc, sp := s.sp, stack := s.stack, dt := s.dt, st := s.st }

/-- `capture_state()` (R103): "an independent copy of the whole state". -/
def captureState (s : State) : Snapshot :=
  { mem := s.mem.load 0 Config.memSize, v := s.v.toList, i := s.i, pc := s.pc, sp := s.sp,
    stack := s.stack.toList, dt := s.dt, st := s.st, fb := s.fb.toList, key := s.key.toList }

/-- A snapshot is malformed "when it cannot be read as the tuple of R20 (wrong sizes, unreadable data), when
`SP > 16`, or when `PC` is odd"; any other values are accepted (R104). -/
def Snapshot.wellFormed (p : Snapshot) : Bool :=
  p.mem.length == Config.memSize && p.v.length == 16 && p.stack.length == 16 && p.fb.length == 32 &&
    p.key.length == 16 && decide (p.sp.toNat ≤ 16) && p.pc.toNat % 2 == 0

/-- The state a snapshot holds. The random stream is not part of a snapshot and is not rewound (log entry 2). -/
def Snapshot.toState (p : Snapshot) (randDraws : Nat) : State :=
  { mem := Memory.ofBytes 0 p.mem
    v := Vector.ofFn (fun j : Fin 16 => p.v.getD j.val 0#8)
    i := p.i, pc := p.pc, sp := p.sp
    stack := Vector.ofFn (fun j : Fin 16 => p.stack.getD j.val 0#16)
    dt := p.dt, st := p.st
    fb := Vector.ofFn (fun j : Fin 32 => p.fb.getD j.val 0#64)
    key := Vector.ofFn (fun j : Fin 16 => p.key.getD j.val false)
    randDraws := randDraws }

/-- `restore_state(s)` (R104): "either the whole machine state is replaced or the operation fails and the prior
state is untouched". -/
def restoreState (data : Option Snapshot) (s : State) : State × Reply :=
  match data with
  | none => (s, .restoreError)
  | some p => if p.wellFormed then (p.toState s.randDraws, .done) else (s, .restoreError)

/-- One command of the host (R90): the state after it and its answer. -/
def command (c : Command) (s : State) : State × Reply :=
  match c with
  | .reset             => (resetCommand s, .done)
  | .loadProgram bytes => loadProgram bytes s
  | .step rand8        => stepCommand rand8 s
  | .tickTimers        => (s.tickTimers, .done)
  | .setKey k pressed  => (s.setKey k pressed, .done)
  | .getFramebuffer    => (s, .framebuffer (framebufferBits s))
  | .getRegisters      => (s, .registers (registerView s))
  | .captureState      => (s, .snapshot (captureState s))
  | .restoreState data => restoreState data s

/-- The state after a sequence of commands, in any interleaving (R58, R247). -/
def runCommands : List Command → State → State
  | [], s => s
  | c :: cs, s => runCommands cs (command c s).1

end Sys2Proof.Machine
end

