-- ==== Sys2Proof/Safety.lean ====
section
/-! DEFINITION. The terms claims are made in: the invariant of the block's state (spec/10_state.md R38 and the
canonical form of memory), the states the host's commands reach, a run without an engine error, what two states
share (the frames), the pixels a sprite covers, and the fields of a word as plain numbers, so that statements about
the decoder do not rest on the decoder's own way of taking fields out. -/
namespace Sys2Proof.Machine

/-- The invariant: memory is in its canonical form, `SP <= 16`, and PC is even (R38). -/
abbrev State.Inv (s : State) : Prop :=
  s.mem.wf = true ∧ s.sp.toNat ≤ 16 ∧ s.pc.toNat % 2 = 0

/-- The states that some sequence of host commands reaches from reset (R241, R243, R247). -/
def State.Reachable (s : State) : Prop := ∃ cs : List Command, runCommands cs State.reset = s

/-- `k` steps in a row meet no engine error and no refusal: what counts as a safe run (R98). -/
def State.runsSafely : Nat → State → Prop
  | 0, _ => True
  | k + 1, s => ∃ t, step s = .next t ∧ State.runsSafely k t

/-- The word at PC can be fetched (R92) and is `ins`. -/
def State.Fetches (s : State) (ins : Word) : Prop :=
  s.pc.toNat ≤ 0xFFE ∧ s.pc.toNat % 2 = 0 ∧
    ins = s.mem.read s.pc.toNat ++ s.mem.read (s.pc.toNat + 1)

/-- Every byte of memory reads as before. -/
def State.SameMemory (s t : State) : Prop := ∀ a, t.mem.read a = s.mem.read a

/-- Every byte of memory outside `a .. a+n-1` reads as before. -/
def State.SameMemoryOutside (a n : Nat) (s t : State) : Prop :=
  ∀ b, (b < a ∨ a + n ≤ b) → t.mem.read b = s.mem.read b

/-- Every general register but those in `written` is as before. -/
def State.SameRegsExcept (written : List Reg) (s t : State) : Prop :=
  ∀ r : Reg, r ∉ written → t.reg r = s.reg r

/-- The stack pointer and every stack entry are as before. -/
def State.SameStack (s t : State) : Prop := t.sp = s.sp ∧ t.stack = s.stack

/-- Both timers are as before. -/
def State.SameTimers (s t : State) : Prop := t.dt = s.dt ∧ t.st = s.st

/-- Every key flag and every pixel is as before. -/
def State.SameDevices (s t : State) : Prop := t.key = s.key ∧ t.fb = s.fb

/-- Everything but the general registers and PC is as before: memory through its bytes, I, the stack, the timers,
the keys and the pixels. -/
def State.SameButRegs (s t : State) : Prop :=
  s.SameMemory t ∧ t.i = s.i ∧ s.SameStack t ∧ s.SameTimers t ∧ s.SameDevices t

/-- The sprite of `DXYN` has a one at pixel (px, py): for some row `r < n` and column `c` of 0..7, bit `7 - c` of the
byte at `I + r` is set and the pixel is `((x0 + c) mod 64, (y0 + r) mod 32)`, as the loops of R182 say. -/
def State.SpriteCovers (s : State) (x y : Reg) (n : Fin 16) (px py : Nat) : Prop :=
  ∃ r c, r < n.val ∧ c < 8 ∧ (s.mem.read (s.i.toNat + r)).getLsbD (7 - c) = true ∧
    px = ((s.reg x).toNat % 64 + c) % 64 ∧ py = ((s.reg y).toNat % 32 + r) % 32

/-- Some pixel the sprite covers is lit (R182: a pixel that was on is turned off). -/
def State.Collides (s : State) (x y : Reg) (n : Fin 16) : Prop :=
  ∃ px py, px < 64 ∧ py < 32 ∧ s.SpriteCovers x y n px py ∧ s.fb.pixel px py = true

/-! ### Fields of a word as numbers (R14) -/

/-- `ins[11:8]`. -/
def wordX (w : Word) : Reg := Fin.ofNat 16 (w.toNat / 0x100)

/-- `ins[7:4]`. -/
def wordY (w : Word) : Reg := Fin.ofNat 16 (w.toNat / 0x10)

/-- `ins[3:0]`. -/
def wordN (w : Word) : Fin 16 := Fin.ofNat 16 w.toNat

/-- `ins[7:0]`. -/
def wordKk (w : Word) : Byte := BitVec.ofNat 8 w.toNat

/-- `ins[11:0]`. -/
def wordNnn (w : Word) : Addr12 := BitVec.ofNat 12 w.toNat

/-- Every word whose bits under `mask` are `value` decodes to the instruction `mk` makes of it (R74, R75). -/
def DecodesAs (mask value : Word) (mk : Word → Instr) : Prop :=
  ∀ w : Word, w &&& mask = value → decode w = .ok (mk w)

end Sys2Proof.Machine
end

