-- ==== Sys2Proof/Certificates/Slice0/Obligations.lean ====
section
/-! DEFINITION. The statements for the provers, in the order of the spec's files. Where a rule carries the spec's own
mark `[decision: ...]` or `[derived: ...]`, the docstring names the decision, and the statement's basis is
'derived'. `pc + 2#16` is the sum in the 16-bit register: a fetch allows only PC <= 0xFFE, from where it does not
wrap (log entry 4). -/

open Sys2Proof Sys2Proof.Machine

/-! ### State and reset (spec/10_state.md, spec/70_reset_and_hazards.md) -/

/-- R39: the state after reset. The font table of R31 is written out (decision D15) and FONT_BASE is any address with
`FONT_BASE + 80 <= 0x200` (decision D14); PC is 0x200 by spec/90_conflicts.md C1. -/
def Obligations.ResetLeavesTheStatedValues : Prop :=
  fontBase + 80 ≤ 0x200 ∧
  (∀ a, a < fontBase ∨ fontBase + 80 ≤ a → State.reset.mem.read a = 0x00#8) ∧
  (∀ k b, ([
    0xF0#8, 0x90#8, 0x90#8, 0x90#8, 0xF0#8, 0x20#8, 0x60#8, 0x20#8, 0x20#8, 0x70#8,
    0xF0#8, 0x10#8, 0xF0#8, 0x80#8, 0xF0#8, 0xF0#8, 0x10#8, 0xF0#8, 0x10#8, 0xF0#8,
    0x90#8, 0x90#8, 0xF0#8, 0x10#8, 0x10#8, 0xF0#8, 0x80#8, 0xF0#8, 0x10#8, 0xF0#8,
    0xF0#8, 0x80#8, 0xF0#8, 0x90#8, 0xF0#8, 0xF0#8, 0x10#8, 0x20#8, 0x40#8, 0x40#8] ++ [
    0xF0#8, 0x90#8, 0xF0#8, 0x90#8, 0xF0#8, 0xF0#8, 0x90#8, 0xF0#8, 0x10#8, 0xF0#8,
    0xF0#8, 0x90#8, 0xF0#8, 0x90#8, 0x90#8, 0xE0#8, 0x90#8, 0xE0#8, 0x90#8, 0xE0#8,
    0xF0#8, 0x80#8, 0x80#8, 0x80#8, 0xF0#8, 0xE0#8, 0x90#8, 0x90#8, 0x90#8, 0xE0#8,
    0xF0#8, 0x80#8, 0xF0#8, 0x80#8, 0xF0#8, 0xF0#8, 0x80#8, 0xF0#8, 0x80#8, 0x80#8])[k]? = some b →
    State.reset.mem.read (fontBase + k) = b) ∧
  (∀ r : Reg, State.reset.reg r = 0x00#8) ∧
  State.reset.i = 0x0000#16 ∧ State.reset.pc = 0x0200#16 ∧ State.reset.sp = 0#8 ∧
  (∀ j : Fin 16, State.reset.stack[j.val] = 0x0000#16) ∧
  State.reset.dt = 0#8 ∧ State.reset.st = 0#8 ∧
  (∀ x y, x < 64 → y < 32 → State.reset.fb.pixel x y = false) ∧
  (∀ k : KeyIndex, State.reset.pressed k = false)

/-- The reset state meets the invariant (R38; memory's canonical form is the model's own). -/
def Obligations.ResetMeetsTheInvariant : Prop := State.reset.Inv

/-- R240 (decision D43), R243, R244 (the spec's own inferences): `reset()` in any state gives the reset state (the
model's counter of random bytes, no state of the spec, is not rewound: log entry 2); after reset with nothing loaded
a step raises UnknownInstruction(0x0000); after `reset` and `load_program`, from any state, the next step fetches the
program's first two bytes. -/
def Obligations.BootFetchesTheLoadedProgram : Prop :=
  (∀ s : State, command .reset s = ({ State.reset with randDraws := s.randDraws }, .done)) ∧
  step State.reset = .fault (.unknownInstruction 0x0000#16) ∧
  ∀ (hi lo : Byte) (rest : List Byte) (s : State), (hi :: lo :: rest).length ≤ 0xE00 →
    (runCommands [.reset, .loadProgram (hi :: lo :: rest)] s).Fetches (hi ++ lo)

/-! ### Fetch, decode, step (spec/40_engine.md, spec/30_encoding.md) -/

/-- R92, R213 (decisions D23, D37): the fetched word, big-endian at PC, and the order of the fetch's errors. -/
def Obligations.FetchReadsTwoBytesOrFaultsInOrder : Prop :=
  ∀ s : State,
    (0xFFF < s.pc.toNat → step s = .fault (.addressOutOfBounds s.pc.toNat)) ∧
    (s.pc.toNat = 0xFFF → step s = .fault (.addressOutOfBounds 0x1000)) ∧
    (s.pc.toNat ≤ 0xFFE → s.pc.toNat % 2 = 1 → step s = .fault (.misalignedPc s.pc.toNat)) ∧
    (s.pc.toNat ≤ 0xFFE → s.pc.toNat % 2 = 0 →
      fetch s = .ok (s.mem.read s.pc.toNat ++ s.mem.read (s.pc.toNat + 1)))

/-- R91 (decision D25): a step is exec of the instruction the bytes at PC decode to, and adds nothing to it. -/
def Obligations.StepRunsTheDecodedInstruction : Prop :=
  ∀ (s : State) (ins : Word) (i : Instr), s.Fetches ins → decode ins = .ok i → step s = exec i s

/-- R93: a word that does not decode. -/
def Obligations.UnknownWordFaultsAndChangesNothing : Prop :=
  ∀ (s : State) (ins : Word) (r : DecodeReject) (rand8 : Byte), s.Fetches ins → decode ins = .error r →
    step s = .fault (.unknownInstruction ins) ∧
    command (.step rand8) s = (s, .error (.unknownInstruction ins))

/-- R96: WaitingForKey exactly when the step executed `FX0A` with no key pressed, else Executed; it is no error. -/
def Obligations.StepAnswersWaitingOnlyForTheKeyWait : Prop :=
  ∀ (s t : State) (ins : Word) (i : Instr) (rand8 : Byte), s.Fetches ins → decode ins = .ok i →
    execWith rand8 i s = .next t →
    (((∃ x, i = .ldVxK x) ∧ ∀ k : KeyIndex, s.pressed k = false) → command (.step rand8) s = (t, .waitingForKey)) ∧
    (¬((∃ x, i = .ldVxK x) ∧ ∀ k : KeyIndex, s.pressed k = false) → command (.step rand8) s = (t, .executed))

/-- R97, R98 (decisions D25, D26): an engine error leaves every part of the state unchanged, and a later step raises
the same error again, whatever random byte it is given. -/
def Obligations.ErrorsChangeNothingAndRecur : Prop :=
  ∀ (s t : State) (e : Fault) (rand8 : Byte), command (.step rand8) s = (t, .error e) →
    t = s ∧ step t = .fault e ∧ ∀ rand8' : Byte, command (.step rand8') t = (t, .error e)

/-- R91, R12 (decision D16): a step that does not execute `CXKK` does not depend on the random byte, neither the one
of the command nor the model's free stream, and the step command and the step then agree. -/
def Obligations.OnlyRndReadsTheRandomByte : Prop :=
  ∀ (s t : State) (ins : Word) (i : Instr), s.Fetches ins → decode ins = .ok i → (∀ x kk, i ≠ .rnd x kk) →
    step s = .next t →
    (∀ rand8 : Byte, (command (.step rand8) s).1 = t) ∧
    (∀ d : Nat, step { s with randDraws := d } = .next { t with randDraws := d })

/-- R107, R142: a jump to its own address spins; such a run never errs. -/
def Obligations.SelfJumpSpinsForever : Prop :=
  ∀ (s : State) (ins : Word), s.Fetches ins → ins.toNat = 0x1000 + s.pc.toNat →
    step s = .next s ∧ ∀ k, s.runsSafely k

/-- Words written out from the encodings of R74 decode to the instructions they stand for (sanity). -/
def Obligations.SampleWordsDecode : Prop :=
  decode 0x00E0#16 = .ok .cls ∧ decode 0x1ABC#16 = .ok (.jp 0xABC#12) ∧
  decode 0x6A05#16 = .ok (.ldImm 0xA 0x05#8) ∧ decode 0x8236#16 = .ok (.shr 0x2 0x3) ∧
  decode 0xD125#16 = .ok (.drw 0x1 0x2 0x5) ∧ decode 0xE39E#16 = .ok (.skp 0x3) ∧
  decode 0xF265#16 = .ok (.ldVxMem 0x2) ∧ decode 0xFFFF#16 = .error (.unknownInstruction 0xFFFF#16)

/-- R74, R75 (decision D2), families 0 to 7: the words of each row decode to its instruction with the fields of R14. -/
def Obligations.OpcodeMapDecodesFamilies0To7 : Prop :=
  DecodesAs 0xFFFF#16 0x00E0#16 (fun _ => .cls) ∧
  DecodesAs 0xFFFF#16 0x00EE#16 (fun _ => .ret) ∧
  DecodesAs 0xF000#16 0x1000#16 (fun w => .jp (wordNnn w)) ∧
  DecodesAs 0xF000#16 0x2000#16 (fun w => .call (wordNnn w)) ∧
  DecodesAs 0xF000#16 0x3000#16 (fun w => .seImm (wordX w) (wordKk w)) ∧
  DecodesAs 0xF000#16 0x4000#16 (fun w => .sneImm (wordX w) (wordKk w)) ∧
  DecodesAs 0xF00F#16 0x5000#16 (fun w => .seReg (wordX w) (wordY w)) ∧
  DecodesAs 0xF000#16 0x6000#16 (fun w => .ldImm (wordX w) (wordKk w)) ∧
  DecodesAs 0xF000#16 0x7000#16 (fun w => .addImm (wordX w) (wordKk w))

/-- R74, R75 (decision D2), families 8 to F. -/
def Obligations.OpcodeMapDecodesFamilies8ToF : Prop :=
  DecodesAs 0xF00F#16 0x8000#16 (fun w => .ldReg (wordX w) (wordY w)) ∧
  DecodesAs 0xF00F#16 0x8001#16 (fun w => .orReg (wordX w) (wordY w)) ∧
  DecodesAs 0xF00F#16 0x8002#16 (fun w => .andReg (wordX w) (wordY w)) ∧
  DecodesAs 0xF00F#16 0x8003#16 (fun w => .xorReg (wordX w) (wordY w)) ∧
  DecodesAs 0xF00F#16 0x8004#16 (fun w => .addReg (wordX w) (wordY w)) ∧
  DecodesAs 0xF00F#16 0x8005#16 (fun w => .sub (wordX w) (wordY w)) ∧
  DecodesAs 0xF00F#16 0x8006#16 (fun w => .shr (wordX w) (wordY w)) ∧
  DecodesAs 0xF00F#16 0x8007#16 (fun w => .subn (wordX w) (wordY w)) ∧
  DecodesAs 0xF00F#16 0x800E#16 (fun w => .shl (wordX w) (wordY w)) ∧
  DecodesAs 0xF00F#16 0x9000#16 (fun w => .sneReg (wordX w) (wordY w)) ∧
  DecodesAs 0xF000#16 0xA000#16 (fun w => .ldI (wordNnn w)) ∧
  DecodesAs 0xF000#16 0xB000#16 (fun w => .jpV0 (wordNnn w)) ∧
  DecodesAs 0xF000#16 0xC000#16 (fun w => .rnd (wordX w) (wordKk w)) ∧
  DecodesAs 0xF000#16 0xD000#16 (fun w => .drw (wordX w) (wordY w) (wordN w)) ∧
  DecodesAs 0xF0FF#16 0xE09E#16 (fun w => .skp (wordX w)) ∧
  DecodesAs 0xF0FF#16 0xE0A1#16 (fun w => .sknp (wordX w)) ∧
  DecodesAs 0xF0FF#16 0xF007#16 (fun w => .ldVxDt (wordX w)) ∧
  DecodesAs 0xF0FF#16 0xF00A#16 (fun w => .ldVxK (wordX w)) ∧
  DecodesAs 0xF0FF#16 0xF015#16 (fun w => .ldDtVx (wordX w)) ∧
  DecodesAs 0xF0FF#16 0xF018#16 (fun w => .ldStVx (wordX w)) ∧
  DecodesAs 0xF0FF#16 0xF01E#16 (fun w => .addI (wordX w)) ∧
  DecodesAs 0xF0FF#16 0xF029#16 (fun w => .ldF (wordX w)) ∧
  DecodesAs 0xF0FF#16 0xF033#16 (fun w => .ldB (wordX w)) ∧
  DecodesAs 0xF0FF#16 0xF055#16 (fun w => .ldMemVx (wordX w)) ∧
  DecodesAs 0xF0FF#16 0xF065#16 (fun w => .ldVxMem (wordX w))

/-- R76 (decisions D3, D4): the illegal words are exactly the six patterns of the rule's table. -/
def Obligations.IllegalWordsAreTheSixPatterns : Prop :=
  ∀ w : Word, decode w = .error (.unknownInstruction w) ↔
    ((w.toNat / 0x1000 = 0x0 ∧ w.toNat ≠ 0x00E0 ∧ w.toNat ≠ 0x00EE) ∨
     (w.toNat / 0x1000 = 0x5 ∧ w.toNat % 0x10 ≠ 0) ∨
     (w.toNat / 0x1000 = 0x8 ∧ w.toNat % 0x10 ∈ [0x8, 0x9, 0xA, 0xB, 0xC, 0xD, 0xF]) ∨
     (w.toNat / 0x1000 = 0x9 ∧ w.toNat % 0x10 ≠ 0) ∨
     (w.toNat / 0x1000 = 0xE ∧ w.toNat % 0x100 ∉ [0x9E, 0xA1]) ∨
     (w.toNat / 0x1000 = 0xF ∧
       w.toNat % 0x100 ∉ [0x07, 0x0A, 0x15, 0x18, 0x1E, 0x29, 0x33, 0x55, 0x65]))

/-- R74: no word matches two rows of the opcode map; and the words some row matches are exactly those the decoder
accepts. -/
def Obligations.OpcodeMapIsUnambiguousAndTheDecoders : Prop :=
  (∀ (w : Word) (r q : OpcodeRow), r ∈ opcodeTable → q ∈ opcodeTable →
    r.accepts w = true → q.accepts w = true → r = q) ∧
  (∀ w : Word, wordWellFormed w = true ↔ ∃ i, decode w = .ok i)

/-- Decoding the word of any instruction gives the instruction back, every operand at every value, as a word and as
the bytes in memory; and encoding what a word decodes to gives the word back. No bit of an encoding is dropped and
each instruction has one word. -/
def Obligations.DecodeAndEncodeAreInverse : Prop :=
  (∀ (i : Instr) (rest : List Byte),
    decode (encode i) = .ok i ∧ decodeBytes (encodeBytes i ++ rest) = .ok (i, rest)) ∧
  (∀ (w : Word) (i : Instr), decode w = .ok i → encode i = w)

/-! ### ALU (spec/41_alu.md) -/

/-- R111, R113: LD Vx, kk and LD Vx, Vy, their encodings and effects; no flag is written and nothing is raised. -/
def Obligations.LoadImmediateAndCopyRegister : Prop :=
  DecodesAs 0xF000#16 0x6000#16 (fun w => .ldImm (wordX w) (wordKk w)) ∧
  DecodesAs 0xF00F#16 0x8000#16 (fun w => .ldReg (wordX w) (wordY w)) ∧
  ∀ (x y : Reg) (kk : Byte) (s : State),
    exec (.ldImm x kk) s = .next { s with v := s.v.set x.val kk, pc := s.pc + 2#16 } ∧
    exec (.ldReg x y) s = .next { s with v := s.v.set x.val s.v[y.val], pc := s.pc + 2#16 }

/-- R112 (decision D11): ADD Vx, kk is modulo 2^8 and VF is no carry. -/
def Obligations.AddImmediateWrapsWithoutCarry : Prop :=
  ∀ (x : Reg) (kk : Byte) (s : State), ∃ t, exec (.addImm x kk) s = .next t ∧
    (t.reg x).toNat = ((s.reg x).toNat + kk.toNat) % 0x100 ∧ s.SameRegsExcept [x] t ∧
    t = { s with v := t.v, pc := s.pc + 2#16 }

/-- R114 to R116 (decision D10): OR, AND and XOR bit by bit; VF is not reset. -/
def Obligations.LogicIsBitwiseAndKeepsVf : Prop :=
  ∀ (x y : Reg) (s : State),
    (∃ t, exec (.orReg x y) s = .next t ∧
      (∀ j < 8, (t.reg x).getLsbD j = ((s.reg x).getLsbD j || (s.reg y).getLsbD j)) ∧
      s.SameRegsExcept [x] t ∧ t = { s with v := t.v, pc := s.pc + 2#16 }) ∧
    (∃ t, exec (.andReg x y) s = .next t ∧
      (∀ j < 8, (t.reg x).getLsbD j = ((s.reg x).getLsbD j && (s.reg y).getLsbD j)) ∧
      s.SameRegsExcept [x] t ∧ t = { s with v := t.v, pc := s.pc + 2#16 }) ∧
    (∃ t, exec (.xorReg x y) s = .next t ∧
      (∀ j < 8, (t.reg x).getLsbD j = ((s.reg x).getLsbD j ^^ (s.reg y).getLsbD j)) ∧
      s.SameRegsExcept [x] t ∧ t = { s with v := t.v, pc := s.pc + 2#16 })

/-- R117, R110 (decision D8): ADD Vx, Vy; the flag is written last, so that VF is the carry also when x = 0xF. -/
def Obligations.AddRegistersSetsCarry : Prop :=
  ∀ (x y : Reg) (s : State), ∃ t, exec (.addReg x y) s = .next t ∧
    (x ≠ 0xF → (t.reg x).toNat = ((s.reg x).toNat + (s.reg y).toNat) % 0x100) ∧
    t.reg 0xF = (if 0xFF < (s.reg x).toNat + (s.reg y).toNat then 1#8 else 0#8) ∧
    s.SameRegsExcept [x, 0xF] t ∧ t = { s with v := t.v, pc := s.pc + 2#16 }

/-- R118, R120, R110 (decisions D8, D9): SUB and SUBN; VF is 1 exactly when no borrow occurs, written last. -/
def Obligations.SubtractionsSetNoBorrow : Prop :=
  ∀ (x y : Reg) (s : State),
    (∃ t, exec (.sub x y) s = .next t ∧
      (x ≠ 0xF → (t.reg x).toNat = ((s.reg x).toNat + 0x100 - (s.reg y).toNat) % 0x100) ∧
      t.reg 0xF = (if (s.reg y).toNat ≤ (s.reg x).toNat then 1#8 else 0#8) ∧
      s.SameRegsExcept [x, 0xF] t ∧ t = { s with v := t.v, pc := s.pc + 2#16 }) ∧
    (∃ t, exec (.subn x y) s = .next t ∧
      (x ≠ 0xF → (t.reg x).toNat = ((s.reg y).toNat + 0x100 - (s.reg x).toNat) % 0x100) ∧
      t.reg 0xF = (if (s.reg x).toNat ≤ (s.reg y).toNat then 1#8 else 0#8) ∧
      s.SameRegsExcept [x, 0xF] t ∧ t = { s with v := t.v, pc := s.pc + 2#16 })

/-- R119, R121, R110 (decisions D5, D8): SHR and SHL shift V[x] in place, whatever V[y] is; VF is the bit shifted
out, written last. -/
def Obligations.ShiftsAreInPlaceAndSetTheBitShiftedOut : Prop :=
  ∀ (x y : Reg) (s : State),
    (∃ t, exec (.shr x y) s = .next t ∧
      (x ≠ 0xF → (t.reg x).toNat = (s.reg x).toNat / 2) ∧
      (t.reg 0xF).toNat = (s.reg x).toNat % 2 ∧
      s.SameRegsExcept [x, 0xF] t ∧ t = { s with v := t.v, pc := s.pc + 2#16 }) ∧
    (∃ t, exec (.shl x y) s = .next t ∧
      (x ≠ 0xF → (t.reg x).toNat = 2 * (s.reg x).toNat % 0x100) ∧
      (t.reg 0xF).toNat = (s.reg x).toNat / 0x80 ∧
      s.SameRegsExcept [x, 0xF] t ∧ t = { s with v := t.v, pc := s.pc + 2#16 })

/-- R122 (decision D16): RND writes some byte masked by kk; with the byte of the step command it is that byte, so
that every value `rand8 & kk` is possible. (That `exec` draws the byte from a free stream through the counter is
the model's own, log entry 2.) -/
def Obligations.RandomByteIsMasked : Prop :=
  ∀ (x : Reg) (kk : Byte) (s : State),
    (∃ (r : Byte) (t : State), exec (.rnd x kk) s = .next t ∧ t.reg x = r &&& kk ∧ s.SameRegsExcept [x] t ∧
      t.pc = s.pc + 2#16 ∧ s.SameButRegs t) ∧
    (∀ rand8 : Byte, execWith rand8 (.rnd x kk) s =
      .next { s with v := s.v.set x.val (rand8 &&& kk), pc := s.pc + 2#16 })

/-- The frame of the ALU instructions: V[x] and, for the five that set a flag, VF (R110, R23). -/
def Obligations.AluFrame : Prop :=
  ∀ (x y : Reg) (kk : Byte) (i : Instr) (s t : State), exec i s = .next t →
    (i ∈ [.ldImm x kk, .addImm x kk, .ldReg x y, .orReg x y, .andReg x y, .xorReg x y, .rnd x kk] →
      s.SameRegsExcept [x] t ∧ s.SameButRegs t) ∧
    (i ∈ [.addReg x y, .sub x y, .shr x y, .subn x y, .shl x y] →
      s.SameRegsExcept [x, 0xF] t ∧ s.SameButRegs t)

/-! ### Control transfer (spec/42_control.md) -/

/-- R142, R144, R13 (decisions D7, D22): JP nnn and JP V0, nnn: the target, the range check before the parity check,
and nothing else changes. -/
def Obligations.JumpsGoToCheckedTargets : Prop :=
  ∀ (nnn : Addr12) (i : Instr) (target : Nat) (s : State),
    ((i = .jp nnn ∧ target = nnn.toNat) ∨ (i = .jpV0 nnn ∧ target = nnn.toNat + (s.reg 0).toNat)) →
    (target ≤ 0xFFE → target % 2 = 0 → exec i s = .next { s with pc := BitVec.ofNat 16 target }) ∧
    (0xFFE < target → exec i s = .fault (.addressOutOfBounds target)) ∧
    (target ≤ 0xFFE → target % 2 = 1 → exec i s = .fault (.misalignedPc target))

/-- R143, R28 (decisions D21, D22, D44): CALL pushes PC + 2 and jumps; overflow comes before the target's checks.
(The stop for SP > 16 is the model's own, log entry 3.) -/
def Obligations.CallPushesTheReturnAddress : Prop :=
  ∀ (nnn : Addr12) (s : State),
    (s.sp.toNat < 16 → nnn.toNat ≤ 0xFFE → nnn.toNat % 2 = 0 →
      ∃ t, exec (.call nnn) s = .next t ∧ t.pc.toNat = nnn.toNat ∧ t.sp.toNat = s.sp.toNat + 1 ∧
        (∀ j : Fin 16, t.stack[j.val] = if j.val = s.sp.toNat then s.pc + 2#16 else s.stack[j.val]) ∧
        t = { s with pc := t.pc, sp := t.sp, stack := t.stack }) ∧
    (s.sp.toNat = 16 → exec (.call nnn) s = .fault .stackOverflow) ∧
    (s.sp.toNat < 16 → 0xFFE < nnn.toNat → exec (.call nnn) s = .fault (.addressOutOfBounds nnn.toNat)) ∧
    (s.sp.toNat < 16 → nnn.toNat ≤ 0xFFE → nnn.toNat % 2 = 1 → exec (.call nnn) s = .fault (.misalignedPc nnn.toNat)) ∧
    (16 < s.sp.toNat → exec (.call nnn) s = .fault (.spOutOfRange s.sp))

/-- R141, R28, R29 (decisions D21, D22, D28): RET pops the address as it is and clears nothing; underflow comes
before the target's checks. (The stop for SP > 16 is the model's own, log entry 3.) -/
def Obligations.ReturnPopsTheReturnAddress : Prop :=
  ∀ s : State,
    (s.sp.toNat = 0 → exec .ret s = .fault .stackUnderflow) ∧
    (16 < s.sp.toNat → exec .ret s = .fault (.spOutOfRange s.sp)) ∧
    (∀ (j : Fin 16) (target : Word), s.sp.toNat = j.val + 1 → target = s.stack[j.val] →
      (target.toNat ≤ 0xFFE → target.toNat % 2 = 0 →
        ∃ t, exec .ret s = .next t ∧ t.sp.toNat = j.val ∧ t = { s with pc := target, sp := t.sp }) ∧
      (0xFFE < target.toNat → exec .ret s = .fault (.addressOutOfBounds target.toNat)) ∧
      (target.toNat ≤ 0xFFE → target.toNat % 2 = 1 → exec .ret s = .fault (.misalignedPc target.toNat)))

/-- R141 with R143 (decision D21): a return right after a call resumes after the call, with SP as before it. -/
def Obligations.ReturnUndoesCall : Prop :=
  ∀ (nnn : Addr12) (s t : State), s.pc.toNat + 2 ≤ 0xFFE → s.pc.toNat % 2 = 0 → exec (.call nnn) s = .next t →
    exec .ret t = .next { s with pc := s.pc + 2#16, stack := t.stack }

/-- R146, R147: SE Vx, kk and SNE Vx, kk, their encodings and effects, and the rules' corner case at PC = 0xFFC. -/
def Obligations.SkipsOnImmediate : Prop :=
  DecodesAs 0xF000#16 0x3000#16 (fun w => .seImm (wordX w) (wordKk w)) ∧
  DecodesAs 0xF000#16 0x4000#16 (fun w => .sneImm (wordX w) (wordKk w)) ∧
  ∀ (x : Reg) (kk : Byte) (s : State),
    exec (.seImm x kk) s = .next { s with pc := if s.reg x = kk then s.pc + 4#16 else s.pc + 2#16 } ∧
    exec (.sneImm x kk) s = .next { s with pc := if s.reg x ≠ kk then s.pc + 4#16 else s.pc + 2#16 } ∧
    (s.pc = 0x0FFC#16 → ∀ t : State,
      (exec (.seImm x kk) s = .next t ∧ s.reg x = kk) ∨ (exec (.sneImm x kk) s = .next t ∧ s.reg x ≠ kk) →
      t.pc = 0x1000#16 ∧ step t = .fault (.addressOutOfBounds 0x1000))

/-- R148, R149 (decision D4 for their encodings): SE Vx, Vy and SNE Vx, Vy; and R190 to R192 (decision D19): the key
skips, by the low nibble of V[x], which leave the key flag as it is. -/
def Obligations.SkipsOnRegistersAndKeys : Prop :=
  ∀ (x y : Reg) (s : State),
    exec (.seReg x y) s = .next { s with pc := if s.reg x = s.reg y then s.pc + 4#16 else s.pc + 2#16 } ∧
    exec (.sneReg x y) s = .next { s with pc := if s.reg x ≠ s.reg y then s.pc + 4#16 else s.pc + 2#16 } ∧
    ∀ k : KeyIndex, k.val = (s.reg x).toNat % 16 →
      exec (.skp x) s = .next { s with pc := if s.pressed k = true then s.pc + 4#16 else s.pc + 2#16 } ∧
      exec (.sknp x) s = .next { s with pc := if s.pressed k = true then s.pc + 2#16 else s.pc + 4#16 }

/-- The frame of the control transfers and of the key skips: no general register, memory byte, I, timer, key or
pixel (R140, R145, R190); only CALL and RET reach the stack (R30), and RET writes no entry of it (R29). -/
def Obligations.ControlFrame : Prop :=
  ∀ (x y : Reg) (kk : Byte) (nnn : Addr12) (i : Instr) (s t : State), exec i s = .next t →
    (i ∈ [.ret, .jp nnn, .call nnn, .jpV0 nnn, .seImm x kk, .sneImm x kk, .seReg x y, .sneReg x y, .skp x, .sknp x] →
      s.SameRegsExcept [] t ∧ s.SameMemory t ∧ t.i = s.i ∧ s.SameTimers t ∧ s.SameDevices t) ∧
    (i ∈ [.jp nnn, .jpV0 nnn, .seImm x kk, .sneImm x kk, .seReg x y, .sneReg x y, .skp x, .sknp x] → s.SameStack t) ∧
    (i = .ret → t.stack = s.stack) ∧
    (i = .call nnn → ∀ j : Fin 16, j.val ≠ s.sp.toNat → t.stack[j.val] = s.stack[j.val])

/-! ### Index register and memory (spec/43_index_memory.md, spec/20_memory.md) -/

/-- R161: LD I, nnn, its encoding and effect. -/
def Obligations.LoadIndexImmediate : Prop :=
  DecodesAs 0xF000#16 0xA000#16 (fun w => .ldI (wordNnn w)) ∧
  ∀ (nnn : Addr12) (s : State),
    exec (.ldI nnn) s = .next { s with i := nnn.setWidth 16, pc := s.pc + 2#16 }

/-- R162, R163 (decisions D12, D13, D14): ADD I, Vx modulo 2^16 without a flag, and LD F, Vx by the low nibble, for
every FONT_BASE. -/
def Obligations.AddToIndexAndPointAtGlyph : Prop :=
  ∀ (x : Reg) (s : State),
    (∃ t, exec (.addI x) s = .next t ∧ t.i.toNat = (s.i.toNat + (s.reg x).toNat) % 0x10000 ∧
      t = { s with i := t.i, pc := s.pc + 2#16 }) ∧
    (∃ t, exec (.ldF x) s = .next t ∧ t.i.toNat = fontBase + 5 * ((s.reg x).toNat % 16) ∧
      t = { s with i := t.i, pc := s.pc + 2#16 })

/-- R164, R54 (decisions D24, D25, D38): LD B, Vx stores the three decimal digits, hundreds first, or raises the
lowest address above 0xFFF. Memory is in canonical form, an invariant (StepKeepsTheInvariant). -/
def Obligations.StoreDecimalDigits : Prop :=
  ∀ (x : Reg) (s : State), s.mem.wf = true →
    (s.i.toNat + 3 ≤ 0x1000 →
      ∃ t, exec (.ldB x) s = .next t ∧
        (t.mem.read s.i.toNat).toNat = (s.reg x).toNat / 100 ∧
        (t.mem.read (s.i.toNat + 1)).toNat = (s.reg x).toNat / 10 % 10 ∧
        (t.mem.read (s.i.toNat + 2)).toNat = (s.reg x).toNat % 10 ∧
        s.SameMemoryOutside s.i.toNat 3 t ∧ t = { s with mem := t.mem, pc := s.pc + 2#16 }) ∧
    (0x1000 < s.i.toNat + 3 → exec (.ldB x) s = .fault (.addressOutOfBounds (max s.i.toNat 0x1000)))

/-- R165, R54 (decisions D6, D24, D25): LD [I], Vx stores V0 to Vx, I unchanged, or raises the lowest address above
0xFFF. Memory is in canonical form, an invariant (StepKeepsTheInvariant). -/
def Obligations.StoreRegistersThroughIndex : Prop :=
  ∀ (x : Reg) (s : State), s.mem.wf = true →
    (s.i.toNat + x.val + 1 ≤ 0x1000 →
      ∃ t, exec (.ldMemVx x) s = .next t ∧
        (∀ r : Reg, r ≤ x → t.mem.read (s.i.toNat + r.val) = s.reg r) ∧
        s.SameMemoryOutside s.i.toNat (x.val + 1) t ∧ t = { s with mem := t.mem, pc := s.pc + 2#16 }) ∧
    (0x1000 < s.i.toNat + x.val + 1 → exec (.ldMemVx x) s = .fault (.addressOutOfBounds (max s.i.toNat 0x1000)))

/-- R166, R54 (decisions D6, D24, D25): LD Vx, [I] loads V0 to Vx, I unchanged, or raises the lowest address above
0xFFF. -/
def Obligations.LoadRegistersThroughIndex : Prop :=
  ∀ (x : Reg) (s : State),
    (s.i.toNat + x.val + 1 ≤ 0x1000 →
      ∃ t, exec (.ldVxMem x) s = .next t ∧
        (∀ r : Reg, t.reg r = if r ≤ x then s.mem.read (s.i.toNat + r.val) else s.reg r) ∧
        t = { s with v := t.v, pc := s.pc + 2#16 }) ∧
    (0x1000 < s.i.toNat + x.val + 1 → exec (.ldVxMem x) s = .fault (.addressOutOfBounds (max s.i.toNat 0x1000)))

/-- The frame of the instructions of this family: the three that set I change I alone; the two that store change
only the bytes at I; the load changes only V0 to Vx (R160). -/
def Obligations.IndexAndMemoryFrame : Prop :=
  ∀ (x : Reg) (nnn : Addr12) (i : Instr) (s t : State), exec i s = .next t →
    (i ∈ [.ldI nnn, .addI x, .ldF x] →
      s.SameRegsExcept [] t ∧ s.SameMemory t ∧ s.SameStack t ∧ s.SameTimers t ∧ s.SameDevices t) ∧
    (i ∈ [.ldB x, .ldMemVx x] →
      s.SameRegsExcept [] t ∧ t.i = s.i ∧ s.SameStack t ∧ s.SameTimers t ∧ s.SameDevices t) ∧
    (i = .ldB x → s.SameMemoryOutside s.dataAddress 3 t) ∧
    (i = .ldMemVx x → s.SameMemoryOutside s.dataAddress (x.val + 1) t) ∧
    (i = .ldVxMem x → (∀ r : Reg, x < r → t.reg r = s.reg r) ∧ s.SameButRegs t)

/-- R62, R245 (decision D39): what `FX55` stores right behind itself is what the next step fetches. -/
def Obligations.StoredBytesAreFetchedNext : Prop :=
  ∀ (x : Reg) (s t : State), s.mem.wf = true → s.pc.toNat % 2 = 0 → s.pc.toNat + 2 ≤ 0xFFE →
    s.i.toNat = s.pc.toNat + 2 → 1 ≤ x.val → exec (.ldMemVx x) s = .next t →
    fetch t = .ok (s.reg 0 ++ s.reg 1)

/-! ### Framebuffer (spec/44_display.md) -/

/-- R181: CLS, its encoding and effect; VF and everything else are unchanged. -/
def Obligations.ClearScreen : Prop :=
  DecodesAs 0xFFFF#16 0x00E0#16 (fun _ => .cls) ∧
  ∀ s : State, ∃ t, exec .cls s = .next t ∧
    (∀ x y, x < 64 → y < 32 → t.fb.pixel x y = false) ∧ t = { s with fb := t.fb, pc := s.pc + 2#16 }

/-- R182, R54 (decisions D17, D18, D24, D25, D41): DRW flips exactly the pixels its sprite covers, with wrap in both
directions, and VF says whether a lit pixel was among them; or it raises the lowest address above 0xFFF. With n = 0
it cannot fault, flips nothing and VF is 0. -/
def Obligations.DrawXorsTheSpriteAndReportsCollision : Prop :=
  ∀ (x y : Reg) (n : Fin 16) (s : State),
    (n.val = 0 ∨ s.i.toNat + n.val ≤ 0x1000 →
      ∃ t, exec (.drw x y n) s = .next t ∧
        (∀ px py, px < 64 → py < 32 →
          (s.SpriteCovers x y n px py → t.fb.pixel px py = !s.fb.pixel px py) ∧
          (¬ s.SpriteCovers x y n px py → t.fb.pixel px py = s.fb.pixel px py)) ∧
        (s.Collides x y n → t.reg 0xF = 1#8) ∧ (¬ s.Collides x y n → t.reg 0xF = 0#8) ∧
        s.SameRegsExcept [0xF] t ∧ t = { s with fb := t.fb, v := t.v, pc := s.pc + 2#16 }) ∧
    (n.val ≠ 0 → 0x1000 < s.i.toNat + n.val →
      exec (.drw x y n) s = .fault (.addressOutOfBounds (max s.i.toNat 0x1000)))

/-- The frame of the framebuffer instructions: pixels, and VF for the draw. -/
def Obligations.DisplayFrame : Prop :=
  ∀ (x y : Reg) (n : Fin 16) (i : Instr) (s t : State), exec i s = .next t → i ∈ [.cls, .drw x y n] →
    s.SameRegsExcept [0xF] t ∧ (i = .cls → s.SameRegsExcept [] t) ∧
    s.SameMemory t ∧ t.i = s.i ∧ s.SameStack t ∧ s.SameTimers t ∧ t.key = s.key

/-! ### Keys and timers (spec/45_input_timers.md, spec/60_exceptions.md) -/

/-- R193 (decisions D20, D42): the key wait takes the least pressed key and consumes its press; with no key pressed
no state changes. -/
def Obligations.KeyWaitTakesTheLeastKey : Prop :=
  ∀ (x : Reg) (s : State),
    (∀ k : KeyIndex, s.pressed k = true → (∀ j < k, s.pressed j = false) →
      exec (.ldVxK x) s = .next { s with
        v := s.v.set x.val (BitVec.ofNat 8 k.val), key := s.key.set k.val false, pc := s.pc + 2#16 }) ∧
    ((∀ k : KeyIndex, s.pressed k = false) → exec (.ldVxK x) s = .next s)

/-- R194, R195: LD Vx, DT and LD DT, Vx, their encodings and effects. -/
def Obligations.DelayTimerReadAndWrite : Prop :=
  DecodesAs 0xF0FF#16 0xF007#16 (fun w => .ldVxDt (wordX w)) ∧
  DecodesAs 0xF0FF#16 0xF015#16 (fun w => .ldDtVx (wordX w)) ∧
  ∀ (x : Reg) (s : State),
    exec (.ldVxDt x) s = .next { s with v := s.v.set x.val s.dt, pc := s.pc + 2#16 } ∧
    exec (.ldDtVx x) s = .next { s with dt := s.reg x, pc := s.pc + 2#16 }

/-- R196, R33 (decision D29): LD ST, Vx, and the sound output follows at once. -/
def Obligations.SoundTimerWriteDrivesTheOutput : Prop :=
  ∀ (x : Reg) (s : State), ∃ t, exec (.ldStVx x) s = .next t ∧ t.st = s.reg x ∧
    (t.soundOn = true ↔ s.reg x ≠ 0#8) ∧ t = { s with st := t.st, pc := s.pc + 2#16 }

/-- The frame of the key wait and the timer accesses (R190). -/
def Obligations.KeyAndTimerFrame : Prop :=
  ∀ (x : Reg) (i : Instr) (s t : State), exec i s = .next t → i ∈ [.ldVxK x, .ldVxDt x, .ldDtVx x, .ldStVx x] →
    s.SameMemory t ∧ t.i = s.i ∧ s.SameStack t ∧ t.fb = s.fb ∧ s.SameRegsExcept [x] t ∧
    (i = .ldVxDt x → s.SameTimers t ∧ t.key = s.key) ∧
    (i = .ldVxK x → s.SameTimers t ∧
      ∀ k : KeyIndex, (∃ j < k, s.pressed j = true) ∨ s.pressed k = false → t.pressed k = s.pressed k) ∧
    (i = .ldDtVx x → s.SameRegsExcept [] t ∧ t.st = s.st ∧ t.key = s.key) ∧
    (i = .ldStVx x → s.SameRegsExcept [] t ∧ t.dt = s.dt ∧ t.key = s.key)

/-- R221: one tick takes one from each timer that is not zero, and changes nothing else. -/
def Obligations.TickDecrementsEachTimer : Prop :=
  ∀ s : State, ∃ t, command .tickTimers s = (t, .done) ∧
    t.dt.toNat = s.dt.toNat - 1 ∧ t.st.toNat = s.st.toNat - 1 ∧ t = { s with dt := t.dt, st := t.st }

/-! ### Host commands (spec/40_engine.md) -/

/-- R99 (decision D27): load_program copies all of a program of at most 3584 bytes to 0x200 and changes nothing
else, or raises AddressOutOfBounds(0x1000) and changes nothing. Memory is in canonical form, an invariant
(CommandsKeepTheInvariant). -/
def Obligations.LoadProgramCopiesAllOrNothing : Prop :=
  ∀ (bytes : List Byte) (s : State), s.mem.wf = true →
    (bytes.length ≤ 0xE00 →
      ∃ t, command (.loadProgram bytes) s = (t, .done) ∧
        (∀ k b, bytes[k]? = some b → t.mem.read (0x200 + k) = b) ∧
        s.SameMemoryOutside 0x200 bytes.length t ∧ t = { s with mem := t.mem }) ∧
    (0xE00 < bytes.length → command (.loadProgram bytes) s = (s, .error (.addressOutOfBounds 0x1000)))

/-- R101 (decision D40): set_key sets one key flag and changes nothing else. -/
def Obligations.SetKeySetsOneFlag : Prop :=
  ∀ (k : KeyIndex) (p : Bool) (s : State), ∃ t, command (.setKey k p) s = (t, .done) ∧
    (∀ j : KeyIndex, t.pressed j = if j = k then p else s.pressed j) ∧ t = { s with key := t.key }

/-- R100, R102: the two views answer the pixels, row-major, and the registers, and change nothing. -/
def Obligations.ViewsShowTheStateAndChangeNothing : Prop :=
  ∀ s : State,
    (∃ bits, command .getFramebuffer s = (s, .framebuffer bits) ∧ bits.length = 2048 ∧
      ∀ x y, x < 64 → y < 32 → bits[y * 64 + x]? = some (s.fb.pixel x y)) ∧
    command .getRegisters s = (s, .registers
      { v := s.v, i := s.i, pc := s.pc, sp := s.sp, stack := s.stack, dt := s.dt, st := s.st })

/-- R103: a capture answers a copy of every component of the state, all 4096 bytes of memory among them, and changes
nothing. -/
def Obligations.CaptureCopiesTheWholeState : Prop :=
  ∀ s : State, ∃ p, command .captureState s = (s, .snapshot p) ∧
    p.mem.length = 4096 ∧ (∀ a, a < 4096 → p.mem[a]? = some (s.mem.read a)) ∧
    p.v = s.v.toList ∧ p.i = s.i ∧ p.pc = s.pc ∧ p.sp = s.sp ∧ p.stack = s.stack.toList ∧ p.dt = s.dt ∧ p.st = s.st ∧
    p.fb = s.fb.toList ∧ p.key = s.key.toList

/-- R105 (the spec's inference from R103, R104, R38; decision D31): restoring a captured state gives it back exactly,
over whatever state, for every state that meets the invariant, as every state the commands reach does
(ReachableStatesMeetTheInvariant). The counter of random bytes is no part of a snapshot (log entry 2). -/
def Obligations.RestoreOfCaptureIsTheState : Prop :=
  ∀ s s' : State, s.Inv → ∃ p, command .captureState s = (s, .snapshot p) ∧
    command (.restoreState (some p)) s' = ({ s with randDraws := s'.randDraws }, .done)

/-- R104 (decision D31): restore_state refuses unreadable data, wrong sizes, SP > 16 and an odd PC, and then changes
nothing; everything else is accepted. -/
def Obligations.RestoreRejectsExactlyMalformedSnapshots : Prop :=
  ∀ (s : State), command (.restoreState none) s = (s, .restoreError) ∧
    ∀ p : Snapshot,
      ((p.mem.length ≠ 4096 ∨ p.v.length ≠ 16 ∨ p.stack.length ≠ 16 ∨ p.fb.length ≠ 32 ∨ p.key.length ≠ 16 ∨
        16 < p.sp.toNat ∨ p.pc.toNat % 2 = 1) → command (.restoreState (some p)) s = (s, .restoreError)) ∧
      ((p.mem.length = 4096 ∧ p.v.length = 16 ∧ p.stack.length = 16 ∧ p.fb.length = 32 ∧ p.key.length = 16 ∧
        p.sp.toNat ≤ 16 ∧ p.pc.toNat % 2 = 0) →
        ∃ t, command (.restoreState (some p)) s = (t, .done) ∧
          (∀ a b, p.mem[a]? = some b → t.mem.read a = b) ∧ t.v.toList = p.v ∧ t.i = p.i ∧ t.pc = p.pc ∧
          t.sp = p.sp ∧ t.stack.toList = p.stack ∧ t.dt = p.dt ∧ t.st = p.st ∧ t.fb.toList = p.fb ∧
          t.key.toList = p.key)

/-! ### The whole machine -/

/-- R38 and memory's canonical form: every step keeps the invariant, from every state that meets it. -/
def Obligations.StepKeepsTheInvariant : Prop :=
  ∀ s t : State, s.Inv → step s = .next t → t.Inv

/-- R38 (the spec's inference): "Every command preserves: SP <= 16; PC even", and memory's canonical form, whatever
the command, its arguments and its answer. -/
def Obligations.CommandsKeepTheInvariant : Prop :=
  ∀ (c : Command) (s : State), s.Inv → (command c s).1.Inv

/-- R38, R247: every state that any interleaving of commands reaches from reset meets the invariant. -/
def Obligations.ReachableStatesMeetTheInvariant : Prop :=
  ∀ s : State, s.Reachable → s.Inv

/-- R27 (the spec's inference): a step leaves PC at most 0x1002, and no instruction executes from a PC above
0xFFE. -/
def Obligations.PcNeverWraps : Prop :=
  ∀ s t : State, step s = .next t → t.pc.toNat ≤ 0x1002 ∧ s.pc.toNat ≤ 0xFFE

/-- R95 (decisions D22, D23): every instruction sets PC in one of the four ways of the rule's table. -/
def Obligations.PcAdvancesInFourWays : Prop :=
  ∀ (i : Instr) (s t : State), s.pc.toNat ≤ 0xFFE → exec i s = .next t →
    match i with
    | .jp _ | .call _ | .ret | .jpV0 _ => t.pc.toNat ≤ 0xFFE ∧ t.pc.toNat % 2 = 0
    | .seImm _ _ | .sneImm _ _ | .seReg _ _ | .sneReg _ _ | .skp _ | .sknp _ =>
      t.pc.toNat = s.pc.toNat + 2 ∨ t.pc.toNat = s.pc.toNat + 4
    | .ldVxK _ =>
      if ∃ k : KeyIndex, s.pressed k = true then t.pc.toNat = s.pc.toNat + 2 else t.pc = s.pc
    | _ => t.pc.toNat = s.pc.toNat + 2

/-- R25, R30, R32, R34, R35, R51 (general knowledge and the spec's decisions for who writes what): memory, I, the
stack, each timer, the pixels and the keys are written only by the instructions these rules name. -/
def Obligations.EachPartOfTheStateHasItsWriters : Prop :=
  ∀ (i : Instr) (s t : State), exec i s = .next t →
    (t.mem ≠ s.mem → ∃ x, i = .ldB x ∨ i = .ldMemVx x) ∧
    (t.i ≠ s.i → (∃ nnn, i = .ldI nnn) ∨ ∃ x, i = .addI x ∨ i = .ldF x) ∧
    (t.sp ≠ s.sp → i = .ret ∨ ∃ nnn, i = .call nnn) ∧
    (t.stack ≠ s.stack → ∃ nnn, i = .call nnn) ∧
    (t.dt ≠ s.dt → ∃ x, i = .ldDtVx x) ∧
    (t.st ≠ s.st → ∃ x, i = .ldStVx x) ∧
    (t.fb ≠ s.fb → i = .cls ∨ ∃ x y n, i = .drw x y n) ∧
    (t.key ≠ s.key → ∃ x, i = .ldVxK x)

/-- R24 (the spec's inference): VF changes only by an instruction that sets it as a flag or names it as V[x] (`FX65`
with x = 0xF among them). -/
def Obligations.VfIsWrittenOnlyAsFlagOrDestination : Prop :=
  ∀ (i : Instr) (s t : State), exec i s = .next t → t.reg 0xF ≠ s.reg 0xF →
    (∃ x y, i = .addReg x y ∨ i = .sub x y ∨ i = .shr x y ∨ i = .subn x y ∨ i = .shl x y) ∨
    (∃ x y n, i = .drw x y n) ∨
    (∃ kk, i = .ldImm 0xF kk ∨ i = .addImm 0xF kk ∨ i = .rnd 0xF kk) ∨
    (∃ y, i = .ldReg 0xF y ∨ i = .orReg 0xF y ∨ i = .andReg 0xF y ∨ i = .xorReg 0xF y) ∨
    i = .ldVxDt 0xF ∨ i = .ldVxK 0xF ∨ i = .ldVxMem 0xF

/-- R210 (decision D22 for MisalignedPc): which instructions raise which engine errors; every other instruction
completes on every state. No step is refused, and from a state that meets the invariant the model's own stop for
SP > 16 (log entry 3) does not occur. -/
def Obligations.EngineErrorsHaveTheirSources : Prop :=
  (∀ (i : Instr) (s : State) (e : Fault), s.Inv → exec i s = .fault e →
    (e = .stackOverflow ∧ ∃ nnn, i = .call nnn) ∨ (e = .stackUnderflow ∧ i = .ret) ∨
    ((∃ a, e = .misalignedPc a ∧ a % 2 = 1) ∧
      (i = .ret ∨ ∃ nnn, i = .jp nnn ∨ i = .call nnn ∨ i = .jpV0 nnn)) ∨
    ((∃ a, e = .addressOutOfBounds a ∧ 0xFFE < a ∧ a ≤ 0xFFFF) ∧
      ((i = .ret ∨ ∃ nnn, i = .jp nnn ∨ i = .call nnn ∨ i = .jpV0 nnn) ∨
        (∃ x y n, i = .drw x y n) ∨ ∃ x, i = .ldB x ∨ i = .ldMemVx x ∨ i = .ldVxMem x))) ∧
  (∀ (s : State) (r : Refusal), step s ≠ .refused r) ∧
  (∀ (s : State) (b : Byte), s.Inv → step s ≠ .fault (.spOutOfRange b))
end

