-- ==== Sys2Proof/Laws/State.lean ====
section
/-! SUPPORT. One lemma per field per update of the state, true by rfl, so that no later proof unfolds a record
update; and what a register reads as after each update. -/
namespace Sys2Proof.Machine

/-! ### setReg -/

@[simp] theorem State.mem_setReg (s : State) (x : Reg) (b : Byte) : (s.setReg x b).mem = s.mem := rfl

@[simp] theorem State.v_setReg (s : State) (x : Reg) (b : Byte) : (s.setReg x b).v = s.v.set x.val b := rfl

@[simp] theorem State.i_setReg (s : State) (x : Reg) (b : Byte) : (s.setReg x b).i = s.i := rfl

@[simp] theorem State.pc_setReg (s : State) (x : Reg) (b : Byte) : (s.setReg x b).pc = s.pc := rfl

@[simp] theorem State.sp_setReg (s : State) (x : Reg) (b : Byte) : (s.setReg x b).sp = s.sp := rfl

@[simp] theorem State.stack_setReg (s : State) (x : Reg) (b : Byte) : (s.setReg x b).stack = s.stack := rfl

@[simp] theorem State.dt_setReg (s : State) (x : Reg) (b : Byte) : (s.setReg x b).dt = s.dt := rfl

@[simp] theorem State.st_setReg (s : State) (x : Reg) (b : Byte) : (s.setReg x b).st = s.st := rfl

@[simp] theorem State.fb_setReg (s : State) (x : Reg) (b : Byte) : (s.setReg x b).fb = s.fb := rfl

@[simp] theorem State.key_setReg (s : State) (x : Reg) (b : Byte) : (s.setReg x b).key = s.key := rfl

@[simp] theorem State.randDraws_setReg (s : State) (x : Reg) (b : Byte) : (s.setReg x b).randDraws = s.randDraws := rfl

/-! ### setI -/

@[simp] theorem State.mem_setI (s : State) (w : Word) : (s.setI w).mem = s.mem := rfl

@[simp] theorem State.v_setI (s : State) (w : Word) : (s.setI w).v = s.v := rfl

@[simp] theorem State.i_setI (s : State) (w : Word) : (s.setI w).i = w := rfl

@[simp] theorem State.pc_setI (s : State) (w : Word) : (s.setI w).pc = s.pc := rfl

@[simp] theorem State.sp_setI (s : State) (w : Word) : (s.setI w).sp = s.sp := rfl

@[simp] theorem State.stack_setI (s : State) (w : Word) : (s.setI w).stack = s.stack := rfl

@[simp] theorem State.dt_setI (s : State) (w : Word) : (s.setI w).dt = s.dt := rfl

@[simp] theorem State.st_setI (s : State) (w : Word) : (s.setI w).st = s.st := rfl

@[simp] theorem State.fb_setI (s : State) (w : Word) : (s.setI w).fb = s.fb := rfl

@[simp] theorem State.key_setI (s : State) (w : Word) : (s.setI w).key = s.key := rfl

@[simp] theorem State.randDraws_setI (s : State) (w : Word) : (s.setI w).randDraws = s.randDraws := rfl

@[simp] theorem State.reg_setI (s : State) (w : Word) (r : Reg) : (s.setI w).reg r = s.reg r := rfl

/-! ### setPc -/

@[simp] theorem State.mem_setPc (s : State) (w : Word) : (s.setPc w).mem = s.mem := rfl

@[simp] theorem State.v_setPc (s : State) (w : Word) : (s.setPc w).v = s.v := rfl

@[simp] theorem State.i_setPc (s : State) (w : Word) : (s.setPc w).i = s.i := rfl

@[simp] theorem State.pc_setPc (s : State) (w : Word) : (s.setPc w).pc = w := rfl

@[simp] theorem State.sp_setPc (s : State) (w : Word) : (s.setPc w).sp = s.sp := rfl

@[simp] theorem State.stack_setPc (s : State) (w : Word) : (s.setPc w).stack = s.stack := rfl

@[simp] theorem State.dt_setPc (s : State) (w : Word) : (s.setPc w).dt = s.dt := rfl

@[simp] theorem State.st_setPc (s : State) (w : Word) : (s.setPc w).st = s.st := rfl

@[simp] theorem State.fb_setPc (s : State) (w : Word) : (s.setPc w).fb = s.fb := rfl

@[simp] theorem State.key_setPc (s : State) (w : Word) : (s.setPc w).key = s.key := rfl

@[simp] theorem State.randDraws_setPc (s : State) (w : Word) : (s.setPc w).randDraws = s.randDraws := rfl

@[simp] theorem State.reg_setPc (s : State) (w : Word) (r : Reg) : (s.setPc w).reg r = s.reg r := rfl

/-! ### setDt -/

@[simp] theorem State.mem_setDt (s : State) (b : Byte) : (s.setDt b).mem = s.mem := rfl

@[simp] theorem State.v_setDt (s : State) (b : Byte) : (s.setDt b).v = s.v := rfl

@[simp] theorem State.i_setDt (s : State) (b : Byte) : (s.setDt b).i = s.i := rfl

@[simp] theorem State.pc_setDt (s : State) (b : Byte) : (s.setDt b).pc = s.pc := rfl

@[simp] theorem State.sp_setDt (s : State) (b : Byte) : (s.setDt b).sp = s.sp := rfl

@[simp] theorem State.stack_setDt (s : State) (b : Byte) : (s.setDt b).stack = s.stack := rfl

@[simp] theorem State.dt_setDt (s : State) (b : Byte) : (s.setDt b).dt = b := rfl

@[simp] theorem State.st_setDt (s : State) (b : Byte) : (s.setDt b).st = s.st := rfl

@[simp] theorem State.fb_setDt (s : State) (b : Byte) : (s.setDt b).fb = s.fb := rfl

@[simp] theorem State.key_setDt (s : State) (b : Byte) : (s.setDt b).key = s.key := rfl

@[simp] theorem State.randDraws_setDt (s : State) (b : Byte) : (s.setDt b).randDraws = s.randDraws := rfl

@[simp] theorem State.reg_setDt (s : State) (b : Byte) (r : Reg) : (s.setDt b).reg r = s.reg r := rfl

/-! ### setSt -/

@[simp] theorem State.mem_setSt (s : State) (b : Byte) : (s.setSt b).mem = s.mem := rfl

@[simp] theorem State.v_setSt (s : State) (b : Byte) : (s.setSt b).v = s.v := rfl

@[simp] theorem State.i_setSt (s : State) (b : Byte) : (s.setSt b).i = s.i := rfl

@[simp] theorem State.pc_setSt (s : State) (b : Byte) : (s.setSt b).pc = s.pc := rfl

@[simp] theorem State.sp_setSt (s : State) (b : Byte) : (s.setSt b).sp = s.sp := rfl

@[simp] theorem State.stack_setSt (s : State) (b : Byte) : (s.setSt b).stack = s.stack := rfl

@[simp] theorem State.dt_setSt (s : State) (b : Byte) : (s.setSt b).dt = s.dt := rfl

@[simp] theorem State.st_setSt (s : State) (b : Byte) : (s.setSt b).st = b := rfl

@[simp] theorem State.fb_setSt (s : State) (b : Byte) : (s.setSt b).fb = s.fb := rfl

@[simp] theorem State.key_setSt (s : State) (b : Byte) : (s.setSt b).key = s.key := rfl

@[simp] theorem State.randDraws_setSt (s : State) (b : Byte) : (s.setSt b).randDraws = s.randDraws := rfl

@[simp] theorem State.reg_setSt (s : State) (b : Byte) (r : Reg) : (s.setSt b).reg r = s.reg r := rfl

/-! ### setFb -/

@[simp] theorem State.mem_setFb (s : State) (f : Frame) : (s.setFb f).mem = s.mem := rfl

@[simp] theorem State.v_setFb (s : State) (f : Frame) : (s.setFb f).v = s.v := rfl

@[simp] theorem State.i_setFb (s : State) (f : Frame) : (s.setFb f).i = s.i := rfl

@[simp] theorem State.pc_setFb (s : State) (f : Frame) : (s.setFb f).pc = s.pc := rfl

@[simp] theorem State.sp_setFb (s : State) (f : Frame) : (s.setFb f).sp = s.sp := rfl

@[simp] theorem State.stack_setFb (s : State) (f : Frame) : (s.setFb f).stack = s.stack := rfl

@[simp] theorem State.dt_setFb (s : State) (f : Frame) : (s.setFb f).dt = s.dt := rfl

@[simp] theorem State.st_setFb (s : State) (f : Frame) : (s.setFb f).st = s.st := rfl

@[simp] theorem State.fb_setFb (s : State) (f : Frame) : (s.setFb f).fb = f := rfl

@[simp] theorem State.key_setFb (s : State) (f : Frame) : (s.setFb f).key = s.key := rfl

@[simp] theorem State.randDraws_setFb (s : State) (f : Frame) : (s.setFb f).randDraws = s.randDraws := rfl

@[simp] theorem State.reg_setFb (s : State) (f : Frame) (r : Reg) : (s.setFb f).reg r = s.reg r := rfl

/-! ### setKey -/

@[simp] theorem State.mem_setKey (s : State) (k : KeyIndex) (p : Bool) : (s.setKey k p).mem = s.mem := rfl

@[simp] theorem State.v_setKey (s : State) (k : KeyIndex) (p : Bool) : (s.setKey k p).v = s.v := rfl

@[simp] theorem State.i_setKey (s : State) (k : KeyIndex) (p : Bool) : (s.setKey k p).i = s.i := rfl

@[simp] theorem State.pc_setKey (s : State) (k : KeyIndex) (p : Bool) : (s.setKey k p).pc = s.pc := rfl

@[simp] theorem State.sp_setKey (s : State) (k : KeyIndex) (p : Bool) : (s.setKey k p).sp = s.sp := rfl

@[simp] theorem State.stack_setKey (s : State) (k : KeyIndex) (p : Bool) : (s.setKey k p).stack = s.stack := rfl

@[simp] theorem State.dt_setKey (s : State) (k : KeyIndex) (p : Bool) : (s.setKey k p).dt = s.dt := rfl

@[simp] theorem State.st_setKey (s : State) (k : KeyIndex) (p : Bool) : (s.setKey k p).st = s.st := rfl

@[simp] theorem State.fb_setKey (s : State) (k : KeyIndex) (p : Bool) : (s.setKey k p).fb = s.fb := rfl

@[simp] theorem State.key_setKey (s : State) (k : KeyIndex) (p : Bool) : (s.setKey k p).key = s.key.set k.val p := rfl

@[simp] theorem State.randDraws_setKey (s : State) (k : KeyIndex) (p : Bool) : (s.setKey k p).randDraws = s.randDraws := rfl

@[simp] theorem State.reg_setKey (s : State) (k : KeyIndex) (p : Bool) (r : Reg) : (s.setKey k p).reg r = s.reg r := rfl

/-! ### setMem -/

@[simp] theorem State.mem_setMem (s : State) (m : Memory) : (s.setMem m).mem = m := rfl

@[simp] theorem State.v_setMem (s : State) (m : Memory) : (s.setMem m).v = s.v := rfl

@[simp] theorem State.i_setMem (s : State) (m : Memory) : (s.setMem m).i = s.i := rfl

@[simp] theorem State.pc_setMem (s : State) (m : Memory) : (s.setMem m).pc = s.pc := rfl

@[simp] theorem State.sp_setMem (s : State) (m : Memory) : (s.setMem m).sp = s.sp := rfl

@[simp] theorem State.stack_setMem (s : State) (m : Memory) : (s.setMem m).stack = s.stack := rfl

@[simp] theorem State.dt_setMem (s : State) (m : Memory) : (s.setMem m).dt = s.dt := rfl

@[simp] theorem State.st_setMem (s : State) (m : Memory) : (s.setMem m).st = s.st := rfl

@[simp] theorem State.fb_setMem (s : State) (m : Memory) : (s.setMem m).fb = s.fb := rfl

@[simp] theorem State.key_setMem (s : State) (m : Memory) : (s.setMem m).key = s.key := rfl

@[simp] theorem State.randDraws_setMem (s : State) (m : Memory) : (s.setMem m).randDraws = s.randDraws := rfl

@[simp] theorem State.reg_setMem (s : State) (m : Memory) (r : Reg) : (s.setMem m).reg r = s.reg r := rfl

/-! ### countDraw -/

@[simp] theorem State.mem_countDraw (s : State) : (s.countDraw).mem = s.mem := rfl

@[simp] theorem State.v_countDraw (s : State) : (s.countDraw).v = s.v := rfl

@[simp] theorem State.i_countDraw (s : State) : (s.countDraw).i = s.i := rfl

@[simp] theorem State.pc_countDraw (s : State) : (s.countDraw).pc = s.pc := rfl

@[simp] theorem State.sp_countDraw (s : State) : (s.countDraw).sp = s.sp := rfl

@[simp] theorem State.stack_countDraw (s : State) : (s.countDraw).stack = s.stack := rfl

@[simp] theorem State.dt_countDraw (s : State) : (s.countDraw).dt = s.dt := rfl

@[simp] theorem State.st_countDraw (s : State) : (s.countDraw).st = s.st := rfl

@[simp] theorem State.fb_countDraw (s : State) : (s.countDraw).fb = s.fb := rfl

@[simp] theorem State.key_countDraw (s : State) : (s.countDraw).key = s.key := rfl

@[simp] theorem State.randDraws_countDraw (s : State) : (s.countDraw).randDraws = s.randDraws + 1 := rfl

@[simp] theorem State.reg_countDraw (s : State) (r : Reg) : (s.countDraw).reg r = s.reg r := rfl

/-! ### advance -/

@[simp] theorem State.mem_advance (s : State) : (s.advance).mem = s.mem := rfl

@[simp] theorem State.v_advance (s : State) : (s.advance).v = s.v := rfl

@[simp] theorem State.i_advance (s : State) : (s.advance).i = s.i := rfl

@[simp] theorem State.pc_advance (s : State) : (s.advance).pc = s.pc + 2#16 := rfl

@[simp] theorem State.sp_advance (s : State) : (s.advance).sp = s.sp := rfl

@[simp] theorem State.stack_advance (s : State) : (s.advance).stack = s.stack := rfl

@[simp] theorem State.dt_advance (s : State) : (s.advance).dt = s.dt := rfl

@[simp] theorem State.st_advance (s : State) : (s.advance).st = s.st := rfl

@[simp] theorem State.fb_advance (s : State) : (s.advance).fb = s.fb := rfl

@[simp] theorem State.key_advance (s : State) : (s.advance).key = s.key := rfl

@[simp] theorem State.randDraws_advance (s : State) : (s.advance).randDraws = s.randDraws := rfl

@[simp] theorem State.reg_advance (s : State) (r : Reg) : (s.advance).reg r = s.reg r := rfl

/-! ### skipIf -/

@[simp] theorem State.mem_skipIf (s : State) (c : Bool) : (s.skipIf c).mem = s.mem := rfl

@[simp] theorem State.v_skipIf (s : State) (c : Bool) : (s.skipIf c).v = s.v := rfl

@[simp] theorem State.i_skipIf (s : State) (c : Bool) : (s.skipIf c).i = s.i := rfl

@[simp] theorem State.pc_skipIf (s : State) (c : Bool) : (s.skipIf c).pc = s.pc + if c then 4#16 else 2#16 := rfl

@[simp] theorem State.sp_skipIf (s : State) (c : Bool) : (s.skipIf c).sp = s.sp := rfl

@[simp] theorem State.stack_skipIf (s : State) (c : Bool) : (s.skipIf c).stack = s.stack := rfl

@[simp] theorem State.dt_skipIf (s : State) (c : Bool) : (s.skipIf c).dt = s.dt := rfl

@[simp] theorem State.st_skipIf (s : State) (c : Bool) : (s.skipIf c).st = s.st := rfl

@[simp] theorem State.fb_skipIf (s : State) (c : Bool) : (s.skipIf c).fb = s.fb := rfl

@[simp] theorem State.key_skipIf (s : State) (c : Bool) : (s.skipIf c).key = s.key := rfl

@[simp] theorem State.randDraws_skipIf (s : State) (c : Bool) : (s.skipIf c).randDraws = s.randDraws := rfl

@[simp] theorem State.reg_skipIf (s : State) (c : Bool) (r : Reg) : (s.skipIf c).reg r = s.reg r := rfl

/-! ### setFlag -/

@[simp] theorem State.mem_setFlag (s : State) (f : Bool) : (s.setFlag f).mem = s.mem := rfl

@[simp] theorem State.i_setFlag (s : State) (f : Bool) : (s.setFlag f).i = s.i := rfl

@[simp] theorem State.pc_setFlag (s : State) (f : Bool) : (s.setFlag f).pc = s.pc := rfl

@[simp] theorem State.sp_setFlag (s : State) (f : Bool) : (s.setFlag f).sp = s.sp := rfl

@[simp] theorem State.stack_setFlag (s : State) (f : Bool) : (s.setFlag f).stack = s.stack := rfl

@[simp] theorem State.dt_setFlag (s : State) (f : Bool) : (s.setFlag f).dt = s.dt := rfl

@[simp] theorem State.st_setFlag (s : State) (f : Bool) : (s.setFlag f).st = s.st := rfl

@[simp] theorem State.fb_setFlag (s : State) (f : Bool) : (s.setFlag f).fb = s.fb := rfl

@[simp] theorem State.key_setFlag (s : State) (f : Bool) : (s.setFlag f).key = s.key := rfl

@[simp] theorem State.randDraws_setFlag (s : State) (f : Bool) : (s.setFlag f).randDraws = s.randDraws := rfl

/-! ### setRegFlag -/

@[simp] theorem State.mem_setRegFlag (s : State) (x : Reg) (b : Byte) (f : Bool) : (s.setRegFlag x b f).mem = s.mem := rfl

@[simp] theorem State.i_setRegFlag (s : State) (x : Reg) (b : Byte) (f : Bool) : (s.setRegFlag x b f).i = s.i := rfl

@[simp] theorem State.pc_setRegFlag (s : State) (x : Reg) (b : Byte) (f : Bool) : (s.setRegFlag x b f).pc = s.pc := rfl

@[simp] theorem State.sp_setRegFlag (s : State) (x : Reg) (b : Byte) (f : Bool) : (s.setRegFlag x b f).sp = s.sp := rfl

@[simp] theorem State.stack_setRegFlag (s : State) (x : Reg) (b : Byte) (f : Bool) : (s.setRegFlag x b f).stack = s.stack := rfl

@[simp] theorem State.dt_setRegFlag (s : State) (x : Reg) (b : Byte) (f : Bool) : (s.setRegFlag x b f).dt = s.dt := rfl

@[simp] theorem State.st_setRegFlag (s : State) (x : Reg) (b : Byte) (f : Bool) : (s.setRegFlag x b f).st = s.st := rfl

@[simp] theorem State.fb_setRegFlag (s : State) (x : Reg) (b : Byte) (f : Bool) : (s.setRegFlag x b f).fb = s.fb := rfl

@[simp] theorem State.key_setRegFlag (s : State) (x : Reg) (b : Byte) (f : Bool) : (s.setRegFlag x b f).key = s.key := rfl

@[simp] theorem State.randDraws_setRegFlag (s : State) (x : Reg) (b : Byte) (f : Bool) : (s.setRegFlag x b f).randDraws = s.randDraws := rfl

/-! ### setRegs -/

@[simp] theorem State.mem_setRegs (s : State) (bs : List Byte) : (s.setRegs bs).mem = s.mem := rfl

@[simp] theorem State.i_setRegs (s : State) (bs : List Byte) : (s.setRegs bs).i = s.i := rfl

@[simp] theorem State.pc_setRegs (s : State) (bs : List Byte) : (s.setRegs bs).pc = s.pc := rfl

@[simp] theorem State.sp_setRegs (s : State) (bs : List Byte) : (s.setRegs bs).sp = s.sp := rfl

@[simp] theorem State.stack_setRegs (s : State) (bs : List Byte) : (s.setRegs bs).stack = s.stack := rfl

@[simp] theorem State.dt_setRegs (s : State) (bs : List Byte) : (s.setRegs bs).dt = s.dt := rfl

@[simp] theorem State.st_setRegs (s : State) (bs : List Byte) : (s.setRegs bs).st = s.st := rfl

@[simp] theorem State.fb_setRegs (s : State) (bs : List Byte) : (s.setRegs bs).fb = s.fb := rfl

@[simp] theorem State.key_setRegs (s : State) (bs : List Byte) : (s.setRegs bs).key = s.key := rfl

@[simp] theorem State.randDraws_setRegs (s : State) (bs : List Byte) : (s.setRegs bs).randDraws = s.randDraws := rfl

/-! ### draw -/

@[simp] theorem State.mem_draw (s : State) (x y : Reg) (n : Fin 16) : (s.draw x y n).mem = s.mem := rfl

@[simp] theorem State.i_draw (s : State) (x y : Reg) (n : Fin 16) : (s.draw x y n).i = s.i := rfl

@[simp] theorem State.pc_draw (s : State) (x y : Reg) (n : Fin 16) : (s.draw x y n).pc = s.pc := rfl

@[simp] theorem State.sp_draw (s : State) (x y : Reg) (n : Fin 16) : (s.draw x y n).sp = s.sp := rfl

@[simp] theorem State.stack_draw (s : State) (x y : Reg) (n : Fin 16) : (s.draw x y n).stack = s.stack := rfl

@[simp] theorem State.dt_draw (s : State) (x y : Reg) (n : Fin 16) : (s.draw x y n).dt = s.dt := rfl

@[simp] theorem State.st_draw (s : State) (x y : Reg) (n : Fin 16) : (s.draw x y n).st = s.st := rfl

@[simp] theorem State.key_draw (s : State) (x y : Reg) (n : Fin 16) : (s.draw x y n).key = s.key := rfl

@[simp] theorem State.randDraws_draw (s : State) (x y : Reg) (n : Fin 16) : (s.draw x y n).randDraws = s.randDraws := rfl

/-! ### tickTimers -/

@[simp] theorem State.mem_tickTimers (s : State) : (s.tickTimers).mem = s.mem := rfl

@[simp] theorem State.v_tickTimers (s : State) : (s.tickTimers).v = s.v := rfl

@[simp] theorem State.i_tickTimers (s : State) : (s.tickTimers).i = s.i := rfl

@[simp] theorem State.pc_tickTimers (s : State) : (s.tickTimers).pc = s.pc := rfl

@[simp] theorem State.sp_tickTimers (s : State) : (s.tickTimers).sp = s.sp := rfl

@[simp] theorem State.stack_tickTimers (s : State) : (s.tickTimers).stack = s.stack := rfl

@[simp] theorem State.dt_tickTimers (s : State) : (s.tickTimers).dt = tickDown s.dt := rfl

@[simp] theorem State.st_tickTimers (s : State) : (s.tickTimers).st = tickDown s.st := rfl

@[simp] theorem State.fb_tickTimers (s : State) : (s.tickTimers).fb = s.fb := rfl

@[simp] theorem State.key_tickTimers (s : State) : (s.tickTimers).key = s.key := rfl

@[simp] theorem State.randDraws_tickTimers (s : State) : (s.tickTimers).randDraws = s.randDraws := rfl

@[simp] theorem State.reg_tickTimers (s : State) (r : Reg) : (s.tickTimers).reg r = s.reg r := rfl

/-! ### What a register reads as -/

/-- `V[r]` after `V[x] <- b`. -/
@[simp] theorem State.reg_setReg (s : State) (x r : Reg) (b : Byte) :
    (s.setReg x b).reg r = if r = x then b else s.reg r := by
  simp [State.reg, State.setReg, Vector.getElem_set, Fin.ext_iff, eq_comm]

/-- `V[r]` after a flag is written: VF is the flag. -/
@[simp] theorem State.reg_setFlag (s : State) (f : Bool) (r : Reg) :
    (s.setFlag f).reg r = if r = vf then flagByte f else s.reg r := by
  simp [State.setFlag]

/-- `V[r]` after a result and a flag are written (R110): VF is the flag, also when x = 0xF. -/
@[simp] theorem State.reg_setRegFlag (s : State) (x r : Reg) (b : Byte) (f : Bool) :
    (s.setRegFlag x b f).reg r = if r = vf then flagByte f else if r = x then b else s.reg r := by
  simp [State.setRegFlag]

/-- `V[r]` after a run of registers is loaded. -/
theorem State.reg_setRegs (s : State) (bs : List Byte) (r : Reg) :
    (s.setRegs bs).reg r = (bs[r.val]?).getD (s.reg r) := by
  simp [State.reg, State.setRegs]

/-- `V[r]` after a draw: only VF is written (R182). -/
theorem State.reg_draw (s : State) (x y r : Reg) (n : Fin 16) (h : r ≠ vf) : (s.draw x y n).reg r = s.reg r := by
  simp [State.draw, h]

/-- `KEY[j]` after `KEY[k] <- p`. -/
@[simp] theorem State.pressed_setKey (s : State) (k j : KeyIndex) (p : Bool) :
    (s.setKey k p).pressed j = if j = k then p else s.pressed j := by
  simp [State.pressed, State.setKey, Vector.getElem_set, Fin.ext_iff, eq_comm]

end Sys2Proof.Machine
end

