-- ==== Sys2Proof/Laws/Display.lean ====
section
/-! SUPPORT. The laws of the framebuffer: a pixel of a blank frame, and what a flip does to each pixel. -/
namespace Sys2Proof.Machine

@[simp] theorem Frame.pixel_blank (x y : Nat) : Frame.blank.pixel x y = false := by
  simp [Frame.pixel, Frame.blank]

/-- A flip turns its own pixel and leaves every other pixel alone. -/
theorem Frame.pixel_flip (fb : Frame) (x y px py : Nat) :
    (fb.flip x y).pixel px py =
      (fb.pixel px py ^^ decide (px % 64 = x % 64 ∧ py % 32 = y % 32)) := by
  have hx : px % 64 < 64 := Nat.mod_lt _ (by decide)
  simp only [Frame.pixel, Frame.flip, Vector.getElem_set]
  by_cases hy : y % 32 = py % 32
  · by_cases h : px % 64 = x % 64
    · simp [hy, h, show x % 64 < 64 by omega]
    · by_cases hlt : px % 64 < x % 64
      · simp [hy, h, hlt]
      · simp [hy, h, hlt, hx, show ¬ px % 64 - x % 64 = 0 by omega]
  · simp [hy, Ne.symm hy]

/-- Two frames with the same pixels are equal. -/
theorem Frame.ext_pixel {f g : Frame} (h : ∀ x < 64, ∀ y < 32, f.pixel x y = g.pixel x y) : f = g := by
  apply Vector.ext
  intro y hy
  apply BitVec.eq_of_getLsbD_eq
  intro x hx
  simpa [Frame.pixel, Nat.mod_eq_of_lt hx, Nat.mod_eq_of_lt hy] using h x hx y hy

end Sys2Proof.Machine
end

