-- ==== Sys2Proof/Laws/Encoding.lean ====
section
/-! SUPPORT. The fields as numbers (spec/00_scope.md R8, R14), the fields of a packed word, and a word made again
from its fields: what the proofs about the decoder and the encoder cite. -/
namespace Sys2Proof

theorem toNat_extract (w : Word) (lo n : Nat) : (w.extractLsb' lo n).toNat = w.toNat / 2 ^ lo % 2 ^ n := by
  simp [BitVec.extractLsb'_toNat, Nat.shiftRight_eq_div_pow]

theorem fieldF_toNat (w : Word) : (fieldF w).toNat = w.toNat / 4096 := by
  have := w.isLt
  rw [fieldF, toNat_extract]
  omega

theorem fieldX_val (w : Word) : (fieldX w).val = w.toNat / 256 % 16 := toNat_extract w 8 4

theorem fieldY_val (w : Word) : (fieldY w).val = w.toNat / 16 % 16 := toNat_extract w 4 4

theorem fieldN_val (w : Word) : (fieldN w).val = w.toNat % 16 := by
  have h : (fieldN w).val = w.toNat / 2 ^ 0 % 2 ^ 4 := toNat_extract w 0 4
  omega

theorem fieldKk_toNat (w : Word) : (fieldKk w).toNat = w.toNat % 256 := by
  rw [fieldKk, toNat_extract]
  omega

theorem fieldNnn_toNat (w : Word) : (fieldNnn w).toNat = w.toNat % 4096 := by
  rw [fieldNnn, toNat_extract]
  omega

/-! ### Packed words as numbers -/

theorem toNat_append_mul {n m : Nat} (a : BitVec n) (b : BitVec m) : (a ++ b).toNat = a.toNat * 2 ^ m + b.toNat := by
  rw [BitVec.toNat_append, Nat.shiftLeft_eq, Nat.mul_comm, Nat.two_pow_add_eq_or_of_lt b.isLt]

theorem packNnn_toNat (f : BitVec 4) (nnn : Addr12) : (packNnn f nnn).toNat = f.toNat * 4096 + nnn.toNat :=
  toNat_append_mul f nnn

theorem packXkk_toNat (f : BitVec 4) (x : Reg) (kk : Byte) :
    (packXkk f x kk).toNat = f.toNat * 4096 + x.val * 256 + kk.toNat := by
  have h : (packXkk f x kk).toNat = (f ++ BitVec.ofFin (w := 4) x).toNat * 2 ^ 8 + kk.toNat :=
    toNat_append_mul (f ++ BitVec.ofFin (w := 4) x) kk
  have hx : (BitVec.ofFin (w := 4) x).toNat = x.val := rfl
  rw [h, toNat_append_mul, hx]
  omega

theorem packXyn_toNat (f : BitVec 4) (x y n : Fin 16) :
    (packXyn f x y n).toNat = f.toNat * 4096 + x.val * 256 + y.val * 16 + n.val := by
  have h : (packXyn f x y n).toNat =
      (f ++ BitVec.ofFin (w := 4) x ++ BitVec.ofFin (w := 4) y).toNat * 2 ^ 4 + n.val :=
    toNat_append_mul (f ++ BitVec.ofFin (w := 4) x ++ BitVec.ofFin (w := 4) y) (BitVec.ofFin (w := 4) n)
  have hx : (BitVec.ofFin (w := 4) x).toNat = x.val := rfl
  have hy : (BitVec.ofFin (w := 4) y).toNat = y.val := rfl
  rw [h, toNat_append_mul, toNat_append_mul, hx, hy]
  omega

/-! ### The fields of a packed word -/

section
variable (f : BitVec 4) (x y n : Fin 16) (kk : Byte) (nnn : Addr12)

@[simp] theorem fieldF_packNnn : fieldF (packNnn f nnn) = f := by
  apply BitVec.eq_of_toNat_eq; have := nnn.isLt
  rw [fieldF_toNat, packNnn_toNat]; omega

@[simp] theorem fieldNnn_packNnn : fieldNnn (packNnn f nnn) = nnn := by
  apply BitVec.eq_of_toNat_eq; have := nnn.isLt
  rw [fieldNnn_toNat, packNnn_toNat]; omega

@[simp] theorem fieldF_packXkk : fieldF (packXkk f x kk) = f := by
  apply BitVec.eq_of_toNat_eq; have := kk.isLt; have := x.isLt
  rw [fieldF_toNat, packXkk_toNat]; omega

@[simp] theorem fieldX_packXkk : fieldX (packXkk f x kk) = x := by
  apply Fin.ext; have := kk.isLt; have := x.isLt
  rw [fieldX_val, packXkk_toNat]; omega

@[simp] theorem fieldKk_packXkk : fieldKk (packXkk f x kk) = kk := by
  apply BitVec.eq_of_toNat_eq; have := kk.isLt
  rw [fieldKk_toNat, packXkk_toNat]; omega

@[simp] theorem fieldF_packXyn : fieldF (packXyn f x y n) = f := by
  apply BitVec.eq_of_toNat_eq; have := n.isLt; have := x.isLt; have := y.isLt
  rw [fieldF_toNat, packXyn_toNat]; omega

@[simp] theorem fieldX_packXyn : fieldX (packXyn f x y n) = x := by
  apply Fin.ext; have := n.isLt; have := x.isLt; have := y.isLt
  rw [fieldX_val, packXyn_toNat]; omega

@[simp] theorem fieldY_packXyn : fieldY (packXyn f x y n) = y := by
  apply Fin.ext; have := n.isLt; have := x.isLt; have := y.isLt
  rw [fieldY_val, packXyn_toNat]; omega

@[simp] theorem fieldN_packXyn : fieldN (packXyn f x y n) = n := by
  apply Fin.ext; have := n.isLt
  rw [fieldN_val, packXyn_toNat]; omega

end

/-! ### A word made again from its fields -/

theorem packNnn_fields (w : Word) : packNnn (fieldF w) (fieldNnn w) = w := by
  apply BitVec.eq_of_toNat_eq
  rw [packNnn_toNat, fieldF_toNat, fieldNnn_toNat]; omega

theorem packXkk_fields (w : Word) : packXkk (fieldF w) (fieldX w) (fieldKk w) = w := by
  apply BitVec.eq_of_toNat_eq
  rw [packXkk_toNat, fieldF_toNat, fieldX_val, fieldKk_toNat]; omega

theorem packXyn_fields (w : Word) : packXyn (fieldF w) (fieldX w) (fieldY w) (fieldN w) = w := by
  apply BitVec.eq_of_toNat_eq
  rw [packXyn_toNat, fieldF_toNat, fieldX_val, fieldY_val, fieldN_val]; omega

/-! ### Words and bytes -/

@[simp] theorem wordOfBytes_high_low (w : Word) : wordOfBytes (highByte w) (lowByte w) = w := by
  apply BitVec.eq_of_toNat_eq
  have h1 := toNat_extract w 8 8
  have h2 := toNat_extract w 0 8
  have := w.isLt
  rw [wordOfBytes, toNat_append_mul, highByte, lowByte, h1, h2]
  omega

@[simp] theorem highByte_wordOfBytes (hi lo : Byte) : highByte (wordOfBytes hi lo) = hi := by
  apply BitVec.eq_of_toNat_eq
  have := hi.isLt; have := lo.isLt
  rw [highByte, toNat_extract, wordOfBytes, toNat_append_mul]
  omega

@[simp] theorem lowByte_wordOfBytes (hi lo : Byte) : lowByte (wordOfBytes hi lo) = lo := by
  apply BitVec.eq_of_toNat_eq
  have := hi.isLt; have := lo.isLt
  rw [lowByte, toNat_extract, wordOfBytes, toNat_append_mul]
  omega

/-! ### A masked word: what the rows of R74 test -/

theorem getLsbD_packNnn (f : BitVec 4) (nnn : Addr12) (j : Nat) :
    (packNnn f nnn).getLsbD j = if j < 12 then nnn.getLsbD j else f.getLsbD (j - 12) :=
  BitVec.getLsbD_append

theorem getLsbD_packXkk (f : BitVec 4) (x : Reg) (kk : Byte) (j : Nat) :
    (packXkk f x kk).getLsbD j =
      if j < 8 then kk.getLsbD j else (f ++ BitVec.ofFin (w := 4) x).getLsbD (j - 8) :=
  BitVec.getLsbD_append

theorem getLsbD_packXyn (f : BitVec 4) (x y n : Fin 16) (j : Nat) :
    (packXyn f x y n).getLsbD j =
      if j < 4 then (BitVec.ofFin (w := 4) n).getLsbD j
      else (f ++ BitVec.ofFin (w := 4) x ++ BitVec.ofFin (w := 4) y).getLsbD (j - 4) :=
  BitVec.getLsbD_append

theorem and_F000 (w : Word) : (w &&& 0xF000#16) = packNnn (fieldF w) 0#12 := by
  apply BitVec.eq_of_getLsbD_eq
  intro j hj
  rw [BitVec.getLsbD_and, getLsbD_packNnn, fieldF, BitVec.getLsbD_extractLsb']
  interval_cases j <;> simp

theorem and_F00F (w : Word) : (w &&& 0xF00F#16) = packXyn (fieldF w) 0 0 (fieldN w) := by
  apply BitVec.eq_of_getLsbD_eq
  intro j hj
  have hn : BitVec.ofFin (w := 4) (fieldN w) = w.extractLsb' 0 4 := rfl
  have h0 : BitVec.ofFin (w := 4) (0 : Fin 16) = 0#4 := rfl
  rw [BitVec.getLsbD_and, getLsbD_packXyn, hn, h0, fieldF]
  simp only [BitVec.getLsbD_append, BitVec.getLsbD_extractLsb']
  interval_cases j <;> simp

theorem and_F0FF (w : Word) : (w &&& 0xF0FF#16) = packXkk (fieldF w) 0 (fieldKk w) := by
  apply BitVec.eq_of_getLsbD_eq
  intro j hj
  have h0 : BitVec.ofFin (w := 4) (0 : Fin 16) = 0#4 := rfl
  rw [BitVec.getLsbD_and, getLsbD_packXkk, h0, fieldF, fieldKk]
  simp only [BitVec.getLsbD_append, BitVec.getLsbD_extractLsb']
  interval_cases j <;> simp

end Sys2Proof
end

