-- ==== Sys2Proof/Laws/Memory.lean ====
section
/-! SUPPORT. The laws of the byte store: read after write, the canonical form and that every memory operation keeps
it, and that memories in canonical form with the same bytes are one list. -/
namespace Sys2Proof.Machine

@[simp] theorem Memory.read_nil (a : Nat) : Memory.read [] a = Memory.unlisted a := rfl

theorem Memory.read_cons (k : Nat) (b : Byte) (rest : Memory) (a : Nat) :
    Memory.read ((k, b) :: rest) a = if a = k then b else Memory.read rest a := rfl

/-- From 0x200 up an unlisted address reads as zero, wherever the font is. -/
theorem Memory.unlisted_program (a : Nat) (h : 0x200 ≤ a) : Memory.unlisted a = 0#8 := by
  simp [Memory.unlisted, show 0x1FF < a by omega]

theorem fontBase_le : fontBase ≤ 432 := Nat.le_of_lt_succ Config.fontBaseIndex.isLt

theorem fontGlyphs_length : fontGlyphs.length = 80 := by decide

/-- The font stands at FONT_BASE. -/
theorem Memory.unlisted_font (k : Nat) (h : k < 80) : Memory.unlisted (fontBase + k) = fontGlyphs.getD k 0#8 := by
  have := fontBase_le
  simp [Memory.unlisted, show ¬ 0x1FF < fontBase + k by omega]

/-- Outside the font an unlisted address reads as zero. -/
theorem Memory.unlisted_outside (a : Nat) (h : a < fontBase ∨ fontBase + 80 ≤ a) : Memory.unlisted a = 0#8 := by
  unfold Memory.unlisted
  split
  · rfl
  · split
    · rw [List.getD_eq_default]
      rw [fontGlyphs_length]
      omega
    · rfl

/-! ### The canonical form -/

/-- What the canonical form from `lo` says of a list with a first entry. -/
theorem Memory.wfFrom_cons (lo k : Nat) (b : Byte) (rest : Memory) :
    Memory.wfFrom lo ((k, b) :: rest) = true ↔
      lo ≤ k ∧ k < 4096 ∧ b ≠ Memory.unlisted k ∧ Memory.wfFrom (k + 1) rest = true := by
  simp [Memory.wfFrom, and_assoc]

theorem Memory.wfFrom_mono {lo lo' : Nat} (h : lo' ≤ lo) {m : Memory} (hm : Memory.wfFrom lo m = true) :
    Memory.wfFrom lo' m = true := by
  cases m with
  | nil => rfl
  | cons c rest =>
    rw [Memory.wfFrom_cons] at hm ⊢
    exact ⟨by omega, hm.2⟩

/-- An address below every entry is not listed. -/
theorem Memory.read_below {lo a : Nat} {m : Memory} (hm : Memory.wfFrom lo m = true) (h : a < lo) :
    m.read a = Memory.unlisted a := by
  induction m generalizing lo with
  | nil => rfl
  | cons c rest ih =>
    obtain ⟨k, b⟩ := c
    rw [Memory.wfFrom_cons] at hm
    rw [Memory.read_cons, if_neg (by omega)]
    exact ih hm.2.2.2 (by omega)

/-- Read after write at the same address. -/
theorem Memory.read_write_same_from {lo : Nat} {m : Memory} (hm : Memory.wfFrom lo m = true) (a : Nat) (b : Byte) :
    (m.write a b).read a = b := by
  induction m generalizing lo with
  | nil => by_cases hb : b = Memory.unlisted a <;> simp [Memory.write, hb, Memory.read_cons]
  | cons c rest ih =>
    obtain ⟨k, c⟩ := c
    rw [Memory.wfFrom_cons] at hm
    simp only [Memory.write]
    split
    · split
      · rename_i hlt hb
        rw [Memory.read_cons, if_neg (by omega), Memory.read_below hm.2.2.2 (by omega), hb]
      · simp [Memory.read_cons]
    · split
      · split
        · rename_i hk hb
          rw [Memory.read_below hm.2.2.2 (by omega), hb]
        · simp [Memory.read_cons]
      · rename_i hk
        rw [Memory.read_cons, if_neg hk]
        exact ih hm.2.2.2

/-- Read after write in a memory in canonical form. -/
theorem Memory.read_write_same {m : Memory} (hm : m.wf = true) (a : Nat) (b : Byte) : (m.write a b).read a = b :=
  Memory.read_write_same_from hm a b

/-- A write leaves every other address alone. -/
theorem Memory.read_write_other (m : Memory) (a c : Nat) (b : Byte) (h : c ≠ a) : (m.write a b).read c = m.read c := by
  induction m with
  | nil => by_cases hb : b = Memory.unlisted a <;> simp [Memory.write, hb, Memory.read_cons, h]
  | cons e rest ih =>
    obtain ⟨k, d⟩ := e
    simp only [Memory.write]
    split
    · split <;> simp [Memory.read_cons, h]
    · split
      · rename_i hk
        subst hk
        split <;> simp [Memory.read_cons, h]
      · simp only [Memory.read_cons, ih]

theorem Memory.write_wfFrom {lo : Nat} {m : Memory} (hm : Memory.wfFrom lo m = true) {a : Nat} (ha : a < 4096)
    (hlo : lo ≤ a) (b : Byte) : Memory.wfFrom lo (m.write a b) = true := by
  induction m generalizing lo with
  | nil => by_cases hb : b = Memory.unlisted a <;> simp [Memory.write, hb, Memory.wfFrom, ha, hlo]
  | cons e rest ih =>
    obtain ⟨k, d⟩ := e
    have h := (Memory.wfFrom_cons _ _ _ _).1 hm
    simp only [Memory.write]
    split
    · split
      · exact hm
      · rw [Memory.wfFrom_cons, Memory.wfFrom_cons]
        refine ⟨hlo, ha, by assumption, by omega, h.2⟩
    · split
      · rename_i hk
        subst hk
        split
        · exact Memory.wfFrom_mono (by omega) h.2.2.2
        · rw [Memory.wfFrom_cons]
          exact ⟨hlo, ha, by assumption, h.2.2.2⟩
      · rw [Memory.wfFrom_cons]
        exact ⟨h.1, h.2.1, h.2.2.1, ih h.2.2.2 (by omega)⟩

/-- A write inside the 4096 bytes keeps the canonical form. -/
theorem Memory.write_wf {m : Memory} (hm : m.wf = true) {a : Nat} (ha : a < 4096) (b : Byte) : (m.write a b).wf = true :=
  Memory.write_wfFrom hm ha (Nat.zero_le a) b

/-! ### Runs of bytes -/

@[simp] theorem Memory.store_nil (m : Memory) (a : Nat) : m.store a [] = m := rfl

theorem Memory.store_cons (m : Memory) (a : Nat) (b : Byte) (bs : List Byte) :
    m.store a (b :: bs) = (m.write a b).store (a + 1) bs := rfl

/-- Storing a run of bytes inside the 4096 bytes keeps the canonical form. -/
theorem Memory.store_wf {m : Memory} (hm : m.wf = true) {a : Nat} {bs : List Byte}
    (h : bs = [] ∨ a + bs.length ≤ 4096) : (m.store a bs).wf = true := by
  induction bs generalizing m a with
  | nil => exact hm
  | cons b bs ih =>
    have h' : a + (bs.length + 1) ≤ 4096 := by simpa using h
    exact ih (Memory.write_wf hm (by omega) b) (Or.inr (by omega))

/-- Storing a run of bytes leaves every address outside the run alone. -/
theorem Memory.read_store_outside (m : Memory) (a c : Nat) (bs : List Byte) (h : c < a ∨ a + bs.length ≤ c) :
    (m.store a bs).read c = m.read c := by
  induction bs generalizing m a with
  | nil => rfl
  | cons b bs ih =>
    have h' : c < a ∨ a + (bs.length + 1) ≤ c := by simpa using h
    rw [Memory.store_cons, ih _ _ (by omega), Memory.read_write_other _ _ _ _ (by omega)]

/-- Storing a run of bytes puts each byte at its address. -/
theorem Memory.read_store_inside {m : Memory} (hm : m.wf = true) {a : Nat} {bs : List Byte}
    (h : a + bs.length ≤ 4096) (k : Nat) (hk : k < bs.length) : (m.store a bs).read (a + k) = bs[k] := by
  induction bs generalizing m a k with
  | nil => simp at hk
  | cons b bs ih =>
    simp only [List.length_cons] at h hk
    rw [Memory.store_cons]
    cases k with
    | zero =>
      rw [Memory.read_store_outside _ _ _ _ (by omega)]
      exact Memory.read_write_same hm _ _
    | succ j =>
      rw [show a + (j + 1) = a + 1 + j by omega]
      exact ih (Memory.write_wf hm (by omega) b) (by omega) j (by omega)

@[simp] theorem Memory.load_length (m : Memory) (a n : Nat) : (m.load a n).length = n := by
  simp [Memory.load]

@[simp] theorem Memory.load_getElem (m : Memory) (a n k : Nat) (h : k < (m.load a n).length) :
    (m.load a n)[k] = m.read (a + k) := by
  simp [Memory.load]

/-- Equal bytes are loaded from memories that read the same. -/
theorem Memory.load_congr {m m' : Memory} (h : ∀ a, m.read a = m'.read a) (a n : Nat) : m.load a n = m'.load a n := by
  simp [Memory.load, h]

/-! ### One list for each contents -/

/-- Two memories in canonical form that read the same everywhere are equal. -/
theorem Memory.ext_from {lo : Nat} {m m' : Memory} (hm : Memory.wfFrom lo m = true)
    (hm' : Memory.wfFrom lo m' = true) (h : ∀ a, m.read a = m'.read a) : m = m' := by
  induction m generalizing lo m' with
  | nil =>
    cases m' with
    | nil => rfl
    | cons e rest =>
      obtain ⟨k, b⟩ := e
      have h1 := ((Memory.wfFrom_cons _ _ _ _).1 hm').2.2.1
      have h2 := h k
      simp only [Memory.read_nil, Memory.read_cons, if_true] at h2
      exact absurd h2.symm h1
  | cons e rest ih =>
    obtain ⟨k, b⟩ := e
    have w := (Memory.wfFrom_cons _ _ _ _).1 hm
    cases m' with
    | nil =>
      have h2 := h k
      simp only [Memory.read_nil, Memory.read_cons, if_true] at h2
      exact absurd h2 w.2.2.1
    | cons e' rest' =>
      obtain ⟨k', b'⟩ := e'
      have w' := (Memory.wfFrom_cons _ _ _ _).1 hm'
      have hk : k = k' := by
        rcases Nat.lt_trichotomy k k' with hlt | heq | hgt
        · have h2 := h k
          rw [Memory.read_cons, if_pos rfl, Memory.read_cons, if_neg (by omega),
            Memory.read_below w'.2.2.2 (by omega)] at h2
          exact absurd h2 w.2.2.1
        · exact heq
        · have h2 := h k'
          rw [Memory.read_cons, if_neg (by omega), Memory.read_below w.2.2.2 (by omega),
            Memory.read_cons, if_pos rfl] at h2
          exact absurd h2.symm w'.2.2.1
      subst hk
      have hb : b = b' := by simpa [Memory.read_cons] using h k
      subst hb
      have hrest : rest = rest' := by
        refine ih w.2.2.2 w'.2.2.2 (fun a => ?_)
        by_cases ha : a = k
        · subst ha
          rw [Memory.read_below w.2.2.2 (by omega), Memory.read_below w'.2.2.2 (by omega)]
        · simpa [Memory.read_cons, ha] using h a
      rw [hrest]

/-- Memory is extensional in canonical form. -/
theorem Memory.ext_wf {m m' : Memory} (hm : m.wf = true) (hm' : m'.wf = true) (h : ∀ a, m.read a = m'.read a) :
    m = m' := Memory.ext_from hm hm' h

theorem Memory.ofBytes_wfFrom (a : Nat) (bs : List Byte) (h : a + bs.length ≤ 4096) :
    Memory.wfFrom a (Memory.ofBytes a bs) = true := by
  induction bs generalizing a with
  | nil => rfl
  | cons b bs ih =>
    simp only [List.length_cons] at h
    have hr := ih (a + 1) (by omega)
    simp only [Memory.ofBytes]
    split
    · exact Memory.wfFrom_mono (by omega) hr
    · rw [Memory.wfFrom_cons]
      exact ⟨Nat.le_refl a, by omega, by assumption, hr⟩

/-- The memory made of at most 4096 bytes is in canonical form. -/
theorem Memory.ofBytes_wf (bs : List Byte) (h : bs.length ≤ 4096) : (Memory.ofBytes 0 bs).wf = true :=
  Memory.ofBytes_wfFrom 0 bs (by omega)

/-- The memory made of bytes reads as those bytes. -/
theorem Memory.read_ofBytes (a : Nat) (bs : List Byte) (h : a + bs.length ≤ 4096) (k : Nat) (hk : k < bs.length) :
    (Memory.ofBytes a bs).read (a + k) = bs[k] := by
  induction bs generalizing a k with
  | nil => simp at hk
  | cons b bs ih =>
    simp only [List.length_cons] at h hk
    have hr := Memory.ofBytes_wfFrom (a + 1) bs (by omega)
    simp only [Memory.ofBytes]
    cases k with
    | zero =>
      split
      · rename_i hb
        rw [Memory.read_below hr (by omega)]
        simp [hb]
      · simp [Memory.read_cons]
    | succ j =>
      have hj := ih (a + 1) (by omega) j (by omega)
      rw [show a + 1 + j = a + (j + 1) by omega] at hj
      split
      · simpa using hj
      · rw [Memory.read_cons, if_neg (by omega)]
        simpa using hj

/-- Above the 4096 bytes nothing is listed. -/
theorem Memory.read_above {lo : Nat} {m : Memory} (hm : Memory.wfFrom lo m = true) {a : Nat} (h : 4096 ≤ a) :
    m.read a = Memory.unlisted a := by
  induction m generalizing lo with
  | nil => rfl
  | cons e rest ih =>
    obtain ⟨k, b⟩ := e
    have w := (Memory.wfFrom_cons _ _ _ _).1 hm
    rw [Memory.read_cons, if_neg (by omega)]
    exact ih w.2.2.2

/-- Memory captured as 4096 bytes and made again from them is the same list. -/
theorem Memory.ofBytes_load {m : Memory} (hm : m.wf = true) : Memory.ofBytes 0 (m.load 0 4096) = m := by
  refine Memory.ext_wf (Memory.ofBytes_wf _ (by simp)) hm (fun a => ?_)
  by_cases ha : a < 4096
  · have h := Memory.read_ofBytes 0 (m.load 0 4096) (by simp) a (by simpa using ha)
    simpa using h
  · rw [Memory.read_above (Memory.ofBytes_wf _ (by simp)) (by omega), Memory.read_above hm (by omega)]

end Sys2Proof.Machine
end

