-- ==== Sys2Proof/Laws/Ops.lean ====
section
/-! SUPPORT. For each shared operation one lemma that says everything it can answer; the proofs cite these instead
of unfolding the operation. -/
namespace Sys2Proof.Machine

@[simp] theorem raise_ne_next (e : Fault) (t : State) : (raise e = .next t) ↔ False := by simp [raise]

@[simp] theorem raise_eq_fault (e e' : Fault) : (raise e = .fault e') ↔ e = e' := by simp [raise]

@[simp] theorem raise_ne_refused (e : Fault) (r : Refusal) : (raise e = .refused r) ↔ False := by simp [raise]

/-! ### Direct transfers -/

/-- A legal target: the jump is taken. -/
theorem jumpTo_legal {t : Nat} (s : State) (h : t ≤ 0xFFE) (h2 : t % 2 = 0) :
    jumpTo t s = .next (s.setPc (BitVec.ofNat 16 t)) := by
  simp [jumpTo, Nat.not_lt.2 h, h2]

/-- A target above 0xFFE. -/
theorem jumpTo_out {t : Nat} (s : State) (h : 0xFFE < t) : jumpTo t s = .fault (.addressOutOfBounds t) := by
  simp [jumpTo, h, raise]

/-- An odd target inside memory. -/
theorem jumpTo_odd {t : Nat} (s : State) (h : t ≤ 0xFFE) (h2 : t % 2 = 1) : jumpTo t s = .fault (.misalignedPc t) := by
  simp [jumpTo, Nat.not_lt.2 h, h2, raise]

/-- Everything a jump can answer as a next state. -/
theorem jumpTo_next {t : Nat} {s u : State} :
    jumpTo t s = .next u ↔ t ≤ 0xFFE ∧ t % 2 = 0 ∧ u = s.setPc (BitVec.ofNat 16 t) := by
  unfold jumpTo
  split
  · simp only [raise_ne_next, false_iff]; omega
  · split
    · simp only [raise_ne_next, false_iff]; omega
    · simp only [Host.Outcome.next.injEq]
      constructor
      · rintro rfl; exact ⟨by omega, by omega, rfl⟩
      · rintro ⟨-, -, rfl⟩; rfl

/-- Everything a jump can raise. -/
theorem jumpTo_fault {t : Nat} {s : State} {e : Fault} :
    jumpTo t s = .fault e ↔
      (0xFFE < t ∧ e = .addressOutOfBounds t) ∨ (t ≤ 0xFFE ∧ t % 2 = 1 ∧ e = .misalignedPc t) := by
  unfold jumpTo
  split
  · rename_i h
    simp only [raise_eq_fault, h, Nat.not_le.2 h, true_and, false_and, or_false]
    exact eq_comm
  · split
    · rename_i h h2
      simp only [raise_eq_fault, h, h2, Nat.not_lt.1 h, true_and, false_and, false_or]
      exact eq_comm
    · rename_i h h2
      simp [h, h2]

theorem jumpTo_not_refused (t : Nat) (s : State) (r : Refusal) : jumpTo t s ≠ .refused r := by
  unfold jumpTo
  split
  · simp
  · split <;> simp

/-! ### The stack -/

/-- A push with room. -/
theorem pushThen_room {addr : Word} {rest : State → Result} {s : State} (h : s.sp.toNat < 16) :
    pushThen addr rest s = rest { s with stack := s.stack.set s.sp.toNat addr h, sp := s.sp + 1#8 } := by
  simp [pushThen, h]

/-- A push on a full stack. -/
theorem pushThen_full {addr : Word} {rest : State → Result} {s : State} (h : s.sp.toNat = 16) :
    pushThen addr rest s = .fault .stackOverflow := by
  simp [pushThen, h, raise]

/-- A push with an SP that is no legal state. -/
theorem pushThen_illegal {addr : Word} {rest : State → Result} {s : State} (h : 16 < s.sp.toNat) :
    pushThen addr rest s = .fault (.spOutOfRange s.sp) := by
  simp [pushThen, show ¬ s.sp.toNat < 16 by omega, show s.sp.toNat ≠ 16 by omega, raise]

/-- A pop of an empty stack. -/
theorem popThen_empty {rest : Word → State → Result} {s : State} (h : s.sp.toNat = 0) :
    popThen rest s = .fault .stackUnderflow := by
  simp [popThen, h, raise]

/-- A pop of a stack that holds an address. -/
theorem popThen_some {rest : Word → State → Result} {s : State} (h0 : s.sp.toNat ≠ 0) (h : s.sp.toNat ≤ 16) :
    popThen rest s = rest (s.stack[s.sp.toNat - 1]'(by omega)) { s with sp := s.sp - 1#8 } := by
  simp [popThen, h0, h]

/-- A pop with an SP that is no legal state. -/
theorem popThen_illegal {rest : Word → State → Result} {s : State} (h : 16 < s.sp.toNat) :
    popThen rest s = .fault (.spOutOfRange s.sp) := by
  simp [popThen, show s.sp.toNat ≠ 0 by omega, show ¬ s.sp.toNat ≤ 16 by omega, raise]

/-! ### Memory accesses -/

/-- An access inside the 4096 bytes goes on. -/
theorem accessThen_inside {a n : Nat} {rest : Result} (h : n = 0 ∨ a + n ≤ 4096) : accessThen a n rest = rest := by
  simp [accessThen, h]

/-- An access that leaves the 4096 bytes raises the lowest address above 0xFFF. -/
theorem accessThen_outside {a n : Nat} {rest : Result} (h0 : n ≠ 0) (h : 4096 < a + n) :
    accessThen a n rest = .fault (.addressOutOfBounds (max a 4096)) := by
  simp [accessThen, h0, show ¬ a + n ≤ 4096 by omega, raise, firstOutOfBounds]

/-- Everything an access can answer as a next state. -/
theorem accessThen_next {a n : Nat} {rest : Result} {t : State} :
    accessThen a n rest = .next t ↔ (n = 0 ∨ a + n ≤ 4096) ∧ rest = .next t := by
  unfold accessThen
  split
  · rename_i h; simp [h]
  · rename_i h; simp [h]

theorem memRead_inside (m : Memory) {a : Nat} (h : a ≤ 0xFFF) : memRead m a = .ok (m.read a) := by
  simp [memRead, h]

theorem memRead_outside (m : Memory) {a : Nat} (h : 0xFFF < a) : memRead m a = .error (.addressOutOfBounds a) := by
  simp [memRead, Nat.not_le.2 h]

/-! ### Fetch -/

/-- A word that can be fetched is fetched. -/
theorem fetch_of_fetches {s : State} {ins : Word} (h : s.Fetches ins) : fetch s = .ok ins := by
  obtain ⟨h1, h2, rfl⟩ := h
  simp [fetch, memRead_inside _ (show s.pc.toNat ≤ 0xFFF by omega),
    memRead_inside _ (show s.pc.toNat + 1 ≤ 0xFFF by omega), h2, wordOfBytes]

/-- A fetch that answers a word is of a PC inside memory and even. -/
theorem fetches_of_fetch {s : State} {ins : Word} (h : fetch s = .ok ins) : s.Fetches ins := by
  unfold fetch at h
  by_cases h1 : s.pc.toNat ≤ 0xFFF
  · rw [memRead_inside _ h1] at h
    by_cases h2 : s.pc.toNat + 1 ≤ 0xFFF
    · rw [memRead_inside _ h2] at h
      simp only at h
      split at h
      · cases h
      · cases h
        exact ⟨by omega, by omega, rfl⟩
    · rw [memRead_outside _ (by omega)] at h
      cases h
  · rw [memRead_outside _ (by omega)] at h
    cases h

/-- Everything a step can answer: what the instruction at PC answers, or a fetch or decode error. -/
theorem step_cases (s : State) :
    (∃ ins i, s.Fetches ins ∧ decode ins = .ok i ∧ step s = exec i s) ∨
      (∃ ins r, s.Fetches ins ∧ decode ins = .error r ∧ step s = .fault (.unknownInstruction ins)) ∨
      (∃ e, fetch s = .error e ∧ step s = .fault e) := by
  cases hf : fetch s with
  | error e => exact Or.inr (Or.inr ⟨e, rfl, by simp [step, fetchDecode, hf, raise]⟩)
  | ok ins =>
    cases hd : decode ins with
    | error r => exact Or.inr (Or.inl ⟨ins, r, fetches_of_fetch hf, hd, by simp [step, fetchDecode, hf, hd, raise]⟩)
    | ok i => exact Or.inl ⟨ins, i, fetches_of_fetch hf, hd, by simp [step, fetchDecode, hf, hd]⟩

/-! ### Error numbers (R211) -/

/-- The engine errors have the numbers 1 to 5. -/
theorem Fault.code_range {e : Fault} {n : Nat} (h : e.code = some n) : 1 ≤ n ∧ n ≤ 5 := by
  cases e <;> simp_all [Fault.code] <;> omega

/-- Only `RestoreError` has the number 6. -/
theorem Reply.errorCode_six {r : Reply} : r.errorCode = some 6 ↔ r = .restoreError := by
  cases r with
  | error e =>
    simp only [Reply.errorCode, reduceCtorEq, iff_false]
    intro h
    have := Fault.code_range h
    omega
  | _ => simp [Reply.errorCode]

/-- `RestoreError` is never a step result. -/
theorem stepCommand_ne_restoreError (rand8 : Byte) (s : State) : (stepCommand rand8 s).2 ≠ .restoreError := by
  unfold stepCommand
  split
  · simp
  · split
    · split <;> simp
    · simp
    · simp

end Sys2Proof.Machine
end

