-- ==== Sys2Proof/Laws/PerInstr.lean ====
section
/-! SUPPORT. Statements made per instruction. EncodesToLegalWord: the word of an instruction is one that the opcode
map of spec/30_encoding.md R74 accepts, in the row of its own mnemonic. The map (Sys2Proof/WellFormed.lean) and the
encoder are written independently of each other. -/
namespace Sys2Proof.Laws.EncodesToLegalWord

/-- The instruction's word is a legal word of R74. -/
def Statement (i : Instr) : Prop := wordWellFormed (encode i) = true

/-- A word that one row of the map accepts is legal. -/
theorem of_row {w : Word} (r : OpcodeRow) (hr : r ∈ opcodeTable) (h : w &&& r.mask = r.value) :
    wordWellFormed w = true := by
  rw [wordWellFormed, List.any_eq_true]
  exact ⟨r, hr, by simp [OpcodeRow.accepts, h]⟩

theorem cls : Statement .cls :=
  of_row ⟨0xFFFF#16, 0x00E0#16, "CLS"⟩ (by decide) (by decide)

theorem ret : Statement .ret :=
  of_row ⟨0xFFFF#16, 0x00EE#16, "RET"⟩ (by decide) (by decide)

theorem jp (nnn : Addr12) : Statement (.jp nnn) :=
  of_row ⟨0xF000#16, 0x1000#16, "JP_nnn"⟩ (by decide) (by rw [encode, and_F000]; simp; decide)

theorem call (nnn : Addr12) : Statement (.call nnn) :=
  of_row ⟨0xF000#16, 0x2000#16, "CALL_nnn"⟩ (by decide) (by rw [encode, and_F000]; simp; decide)

theorem seImm (x : Reg) (kk : Byte) : Statement (.seImm x kk) :=
  of_row ⟨0xF000#16, 0x3000#16, "SE_Vx__kk"⟩ (by decide) (by rw [encode, and_F000]; simp; decide)

theorem sneImm (x : Reg) (kk : Byte) : Statement (.sneImm x kk) :=
  of_row ⟨0xF000#16, 0x4000#16, "SNE_Vx__kk"⟩ (by decide) (by rw [encode, and_F000]; simp; decide)

theorem seReg (x : Reg) (y : Reg) : Statement (.seReg x y) :=
  of_row ⟨0xF00F#16, 0x5000#16, "SE_Vx__Vy"⟩ (by decide) (by rw [encode, and_F00F]; simp; decide)

theorem ldImm (x : Reg) (kk : Byte) : Statement (.ldImm x kk) :=
  of_row ⟨0xF000#16, 0x6000#16, "LD_Vx__kk"⟩ (by decide) (by rw [encode, and_F000]; simp; decide)

theorem addImm (x : Reg) (kk : Byte) : Statement (.addImm x kk) :=
  of_row ⟨0xF000#16, 0x7000#16, "ADD_Vx__kk"⟩ (by decide) (by rw [encode, and_F000]; simp; decide)

theorem ldReg (x : Reg) (y : Reg) : Statement (.ldReg x y) :=
  of_row ⟨0xF00F#16, 0x8000#16, "LD_Vx__Vy"⟩ (by decide) (by rw [encode, and_F00F]; simp; decide)

theorem orReg (x : Reg) (y : Reg) : Statement (.orReg x y) :=
  of_row ⟨0xF00F#16, 0x8001#16, "OR_Vx__Vy"⟩ (by decide) (by rw [encode, and_F00F]; simp; decide)

theorem andReg (x : Reg) (y : Reg) : Statement (.andReg x y) :=
  of_row ⟨0xF00F#16, 0x8002#16, "AND_Vx__Vy"⟩ (by decide) (by rw [encode, and_F00F]; simp; decide)

theorem xorReg (x : Reg) (y : Reg) : Statement (.xorReg x y) :=
  of_row ⟨0xF00F#16, 0x8003#16, "XOR_Vx__Vy"⟩ (by decide) (by rw [encode, and_F00F]; simp; decide)

theorem addReg (x : Reg) (y : Reg) : Statement (.addReg x y) :=
  of_row ⟨0xF00F#16, 0x8004#16, "ADD_Vx__Vy"⟩ (by decide) (by rw [encode, and_F00F]; simp; decide)

theorem sub (x : Reg) (y : Reg) : Statement (.sub x y) :=
  of_row ⟨0xF00F#16, 0x8005#16, "SUB_Vx__Vy"⟩ (by decide) (by rw [encode, and_F00F]; simp; decide)

theorem shr (x : Reg) (y : Reg) : Statement (.shr x y) :=
  of_row ⟨0xF00F#16, 0x8006#16, "SHR_Vx"⟩ (by decide) (by rw [encode, and_F00F]; simp; decide)

theorem subn (x : Reg) (y : Reg) : Statement (.subn x y) :=
  of_row ⟨0xF00F#16, 0x8007#16, "SUBN_Vx__Vy"⟩ (by decide) (by rw [encode, and_F00F]; simp; decide)

theorem shl (x : Reg) (y : Reg) : Statement (.shl x y) :=
  of_row ⟨0xF00F#16, 0x800E#16, "SHL_Vx"⟩ (by decide) (by rw [encode, and_F00F]; simp; decide)

theorem sneReg (x : Reg) (y : Reg) : Statement (.sneReg x y) :=
  of_row ⟨0xF00F#16, 0x9000#16, "SNE_Vx__Vy"⟩ (by decide) (by rw [encode, and_F00F]; simp; decide)

theorem ldI (nnn : Addr12) : Statement (.ldI nnn) :=
  of_row ⟨0xF000#16, 0xA000#16, "LD_I__nnn"⟩ (by decide) (by rw [encode, and_F000]; simp; decide)

theorem jpV0 (nnn : Addr12) : Statement (.jpV0 nnn) :=
  of_row ⟨0xF000#16, 0xB000#16, "JP_V0__nnn"⟩ (by decide) (by rw [encode, and_F000]; simp; decide)

theorem rnd (x : Reg) (kk : Byte) : Statement (.rnd x kk) :=
  of_row ⟨0xF000#16, 0xC000#16, "RND_Vx__kk"⟩ (by decide) (by rw [encode, and_F000]; simp; decide)

theorem drw (x : Reg) (y : Reg) (n : Fin 16) : Statement (.drw x y n) :=
  of_row ⟨0xF000#16, 0xD000#16, "DRW_Vx__Vy__n"⟩ (by decide) (by rw [encode, and_F000]; simp; decide)

theorem skp (x : Reg) : Statement (.skp x) :=
  of_row ⟨0xF0FF#16, 0xE09E#16, "SKP_Vx"⟩ (by decide) (by rw [encode, and_F0FF]; simp; decide)

theorem sknp (x : Reg) : Statement (.sknp x) :=
  of_row ⟨0xF0FF#16, 0xE0A1#16, "SKNP_Vx"⟩ (by decide) (by rw [encode, and_F0FF]; simp; decide)

theorem ldVxDt (x : Reg) : Statement (.ldVxDt x) :=
  of_row ⟨0xF0FF#16, 0xF007#16, "LD_Vx__DT"⟩ (by decide) (by rw [encode, and_F0FF]; simp; decide)

theorem ldVxK (x : Reg) : Statement (.ldVxK x) :=
  of_row ⟨0xF0FF#16, 0xF00A#16, "LD_Vx__K"⟩ (by decide) (by rw [encode, and_F0FF]; simp; decide)

theorem ldDtVx (x : Reg) : Statement (.ldDtVx x) :=
  of_row ⟨0xF0FF#16, 0xF015#16, "LD_DT__Vx"⟩ (by decide) (by rw [encode, and_F0FF]; simp; decide)

theorem ldStVx (x : Reg) : Statement (.ldStVx x) :=
  of_row ⟨0xF0FF#16, 0xF018#16, "LD_ST__Vx"⟩ (by decide) (by rw [encode, and_F0FF]; simp; decide)

theorem addI (x : Reg) : Statement (.addI x) :=
  of_row ⟨0xF0FF#16, 0xF01E#16, "ADD_I__Vx"⟩ (by decide) (by rw [encode, and_F0FF]; simp; decide)

theorem ldF (x : Reg) : Statement (.ldF x) :=
  of_row ⟨0xF0FF#16, 0xF029#16, "LD_F__Vx"⟩ (by decide) (by rw [encode, and_F0FF]; simp; decide)

theorem ldB (x : Reg) : Statement (.ldB x) :=
  of_row ⟨0xF0FF#16, 0xF033#16, "LD_B__Vx"⟩ (by decide) (by rw [encode, and_F0FF]; simp; decide)

theorem ldMemVx (x : Reg) : Statement (.ldMemVx x) :=
  of_row ⟨0xF0FF#16, 0xF055#16, "LD__I___Vx"⟩ (by decide) (by rw [encode, and_F0FF]; simp; decide)

theorem ldVxMem (x : Reg) : Statement (.ldVxMem x) :=
  of_row ⟨0xF0FF#16, 0xF065#16, "LD_Vx___I"⟩ (by decide) (by rw [encode, and_F0FF]; simp; decide)

end Sys2Proof.Laws.EncodesToLegalWord
end

