-- ==== Sys2Proof/Tests/Slice0.lean ====
section
/-! SUPPORT. The model's own tests. The words of the decode tests are written out from spec/30_encoding.md R74; the
one-step tests are the vectors of spec/95_test_vectors.md (the name of each ends in the vector's id), whose expected
values come from there. The spec's vectors take FONT_BASE = 0x050; no test but the glyph ones touches the font, and
those say the address relative to FONT_BASE. The last part holds, for every obligation that has hypotheses, states
and operands that meet them together (the theorems `witness_…`). -/

set_option maxRecDepth 100000

namespace Sys2Proof.Tests
open Sys2Proof Sys2Proof.Machine

/-! ### WellFormed: what is ill-formed is refused -/

/-- R74's map passes its own checks. -/
theorem test_opcode_table_well_formed : tableWellFormed opcodeTable := by decide

theorem test_opcode_table_has_34_rows : opcodeTable.length = 34 := by decide

/-- A row that fixes a bit outside its mask. -/
theorem test_row_with_a_bit_outside_its_mask_refused :
    (OpcodeRow.mk 0xF00F#16 0x5010#16 "bad").wellFormed = false := by decide

/-- Two rows that share words (`5XY0` once with and once without its low nibble). -/
theorem test_overlapping_rows_refused :
    ¬ tableWellFormed [⟨0xF00F#16, 0x5000#16, "a"⟩, ⟨0xF000#16, 0x5000#16, "b"⟩] := by decide

/-- A table with a row that is ill-formed by itself. -/
theorem test_table_with_a_bad_row_refused : ¬ tableWellFormed [⟨0x0FFF#16, 0x1000#16, "a"⟩] := by decide

/-- One word of each pattern of R76 is no instruction word. -/
theorem test_ill_formed_words_refused :
    [0x0000#16, 0x0123#16, 0x00E1#16, 0x5121#16, 0x8008#16, 0x800F#16, 0x9128#16, 0xE09F#16, 0xF000#16, 0xF1FF#16].all
      (fun w => !wordWellFormed w) = true := by decide

/-- One word of each of several formats is an instruction word. -/
theorem test_well_formed_words_accepted :
    [0x00E0#16, 0x00EE#16, 0x1FFF#16, 0x5AB0#16, 0x8ABE#16, 0x9AB0#16, 0xDABF#16, 0xEA9E#16, 0xFA65#16].all
      wordWellFormed = true := by decide

/-! ### Decode: a word of every row, its fields written out -/

theorem test_decode_cls : decode 0b0000000011100000#16 = .ok .cls := by decide
theorem test_decode_ret : decode 0b0000000011101110#16 = .ok .ret := by decide
theorem test_decode_jp : decode 0b0001101010111100#16 = .ok (.jp 0xABC) := by decide
theorem test_decode_call : decode 0b0010001000001100#16 = .ok (.call 0x20C) := by decide
theorem test_decode_seImm : decode 0b0011101000000011#16 = .ok (.seImm 0xA 0x03) := by decide
theorem test_decode_sneImm : decode 0b0100101000000011#16 = .ok (.sneImm 0xA 0x03) := by decide
theorem test_decode_seReg : decode 0b0101000100100000#16 = .ok (.seReg 1 2) := by decide
theorem test_decode_ldImm : decode 0b0110101000000101#16 = .ok (.ldImm 0xA 0x05) := by decide
theorem test_decode_addImm : decode 0b0111101000000010#16 = .ok (.addImm 0xA 0x02) := by decide
theorem test_decode_ldReg : decode 0b1000000100100000#16 = .ok (.ldReg 1 2) := by decide
theorem test_decode_orReg : decode 0b1000000100100001#16 = .ok (.orReg 1 2) := by decide
theorem test_decode_andReg : decode 0b1000000100100010#16 = .ok (.andReg 1 2) := by decide
theorem test_decode_xorReg : decode 0b1000000100100011#16 = .ok (.xorReg 1 2) := by decide
theorem test_decode_addReg : decode 0b1000000100100100#16 = .ok (.addReg 1 2) := by decide
theorem test_decode_sub : decode 0b1000000100100101#16 = .ok (.sub 1 2) := by decide
theorem test_decode_shr : decode 0b1000001000110110#16 = .ok (.shr 2 3) := by decide
theorem test_decode_subn : decode 0b1000000100100111#16 = .ok (.subn 1 2) := by decide
theorem test_decode_shl : decode 0b1000001000111110#16 = .ok (.shl 2 3) := by decide
theorem test_decode_sneReg : decode 0b1001000100100000#16 = .ok (.sneReg 1 2) := by decide
theorem test_decode_ldI : decode 0b1010001100000000#16 = .ok (.ldI 0x300) := by decide
theorem test_decode_jpV0 : decode 0b1011001100000000#16 = .ok (.jpV0 0x300) := by decide
theorem test_decode_rnd : decode 0b1100001111110000#16 = .ok (.rnd 3 0xF0) := by decide
theorem test_decode_drw : decode 0b1101000100100101#16 = .ok (.drw 1 2 5) := by decide
theorem test_decode_skp : decode 0b1110001110011110#16 = .ok (.skp 3) := by decide
theorem test_decode_sknp : decode 0b1110001110100001#16 = .ok (.sknp 3) := by decide
theorem test_decode_ldVxDt : decode 0b1111010100000111#16 = .ok (.ldVxDt 5) := by decide
theorem test_decode_ldVxK : decode 0b1111001100001010#16 = .ok (.ldVxK 3) := by decide
theorem test_decode_ldDtVx : decode 0b1111010100010101#16 = .ok (.ldDtVx 5) := by decide
theorem test_decode_ldStVx : decode 0b1111010100011000#16 = .ok (.ldStVx 5) := by decide
theorem test_decode_addI : decode 0b1111000000011110#16 = .ok (.addI 0) := by decide
theorem test_decode_ldF : decode 0b1111000000101001#16 = .ok (.ldF 0) := by decide
theorem test_decode_ldB : decode 0b1111000000110011#16 = .ok (.ldB 0) := by decide
theorem test_decode_ldMemVx : decode 0b1111001001010101#16 = .ok (.ldMemVx 2) := by decide
theorem test_decode_ldVxMem : decode 0b1111001001100101#16 = .ok (.ldVxMem 2) := by decide

/-- Bytes in memory order: the first byte is the high one (R52), and two bytes are consumed. -/
theorem test_decode_bytes :
    decodeBytes [0x6A#8, 0x05#8, 0x7A#8] = .ok (.ldImm 0xA 0x05, [0x7A#8]) ∧ decodeBytes [0x6A#8] = .error .truncated := by decide

/-- The opcode table's numbering: bit 0 is the word's least significant bit. -/
theorem test_decode_table_word :
    decodeTableWord 16 0xF265 = some (.ldVxMem 2) ∧ decodeTableWord 16 0xFFFF = none := by decide

/-! ### One step on a small state -/

/-- The instruction word `ins` at `pc`, the rest as after reset. -/
def base (ins : Nat) (pc : Word := 0x200) : State := (State.reset.setPc pc).withFetchWord 16 ins

/-- `s` with `V[x]` holding the byte of each pair. -/
def withV (s : State) (vs : List (Reg × Byte)) : State := vs.foldl (fun s p => s.setReg p.1 p.2) s

/-- `s` with bytes stored from `a` up. -/
def withBytes (s : State) (a : Nat) (bs : List Byte) : State := s.setMem (s.mem.store a bs)

/-- `s` with an SP and a first stack entry. -/
def withStack (s : State) (sp : Byte) (top : Word) : State := { s with sp := sp, stack := s.stack.set 0 top }

/-- The frame in which exactly these pixels are lit. -/
def lit (ps : List (Nat × Nat)) : Frame := ps.foldl (fun fb p => fb.flip p.1 p.2) Frame.blank

/-- The outcome is a next state with property `p`. -/
def nx (r : Result) (p : State → Bool) : Bool :=
  match r with
  | .next t => p t
  | _ => false

/-- The outcome is the fault `e`. -/
def ft (r : Result) (e : Fault) : Bool :=
  match r with
  | .fault x => x == e
  | _ => false

/-- A state with the registers, PC given: what the vectors of section 2.1 list. -/
def regsPc (vs : List (Reg × Byte)) (pc : Word) (t : State) : Bool := vs.all (fun p => t.reg p.1 == p.2) && t.pc == pc

theorem test_ldImm_A1 : nx (step (base 0x6A05)) (regsPc [(0xA, 0x05)] 0x202) = true := by decide
theorem test_ldImm_A2 : nx (step (base 0x6FFF)) (regsPc [(0xF, 0xFF)] 0x202) = true := by decide
theorem test_addImm_A4 :
    nx (step (withV (base 0x70FF) [(0, 0x01), (0xF, 0x07)])) (regsPc [(0, 0x00), (0xF, 0x07)] 0x202) = true := by decide
theorem test_addImm_A5 : nx (step (withV (base 0x7F01) [(0xF, 0xFF)])) (regsPc [(0xF, 0x00)] 0x202) = true := by decide
theorem test_ldReg_A6 :
    nx (step (withV (base 0x8120) [(1, 0x03), (2, 0x09)])) (regsPc [(1, 0x09), (2, 0x09)] 0x202) = true := by decide
theorem test_orReg_A7 : nx (step (withV (base 0x8121) [(1, 0xF0), (2, 0x0F), (0xF, 0x05)]))
    (regsPc [(1, 0xFF), (2, 0x0F), (0xF, 0x05)] 0x202) = true := by decide
theorem test_andReg_A8 : nx (step (withV (base 0x8122) [(1, 0xF0), (2, 0x3C), (0xF, 0x05)]))
    (regsPc [(1, 0x30), (2, 0x3C), (0xF, 0x05)] 0x202) = true := by decide
theorem test_xorReg_A9 : nx (step (withV (base 0x8123) [(1, 0xFF), (2, 0x0F), (0xF, 0x05)]))
    (regsPc [(1, 0xF0), (2, 0x0F), (0xF, 0x05)] 0x202) = true := by decide
theorem test_addReg_A10 :
    nx (step (withV (base 0x8014) [(0, 0xC8), (1, 0x64)])) (regsPc [(0, 0x2C), (1, 0x64), (0xF, 0x01)] 0x202) = true := by decide
theorem test_addReg_A13 :
    nx (step (withV (base 0x8F14) [(0xF, 0xFF), (1, 0x01)])) (regsPc [(0xF, 0x01)] 0x202) = true := by decide
theorem test_sub_A16 :
    nx (step (withV (base 0x8015) [(0, 0x05), (1, 0x05)])) (regsPc [(0, 0x00), (0xF, 0x01)] 0x202) = true := by decide
theorem test_sub_A17 :
    nx (step (withV (base 0x8015) [(0, 0x05), (1, 0x06)])) (regsPc [(0, 0xFF), (0xF, 0x00)] 0x202) = true := by decide
theorem test_shr_A21 : nx (step (withV (base 0x8236) [(2, 0x02), (3, 0xFF)]))
    (regsPc [(2, 0x01), (3, 0xFF), (0xF, 0x00)] 0x202) = true := by decide
theorem test_shr_A22 : nx (step (withV (base 0x8F06) [(0xF, 0x03)])) (regsPc [(0xF, 0x01)] 0x202) = true := by decide
theorem test_subn_A24 :
    nx (step (withV (base 0x8017) [(0, 0x06), (1, 0x05)])) (regsPc [(0, 0xFF), (0xF, 0x00)] 0x202) = true := by decide
theorem test_subn_A25 :
    nx (step (withV (base 0x8017) [(0, 0x01), (1, 0x10)])) (regsPc [(0, 0x0F), (0xF, 0x01)] 0x202) = true := by decide
theorem test_shl_A26 :
    nx (step (withV (base 0x820E) [(2, 0x81)])) (regsPc [(2, 0x02), (0xF, 0x01)] 0x202) = true := by decide
theorem test_shl_A28 : nx (step (withV (base 0x8FFE) [(0xF, 0x80)])) (regsPc [(0xF, 0x01)] 0x202) = true := by decide
theorem test_rnd_A29 : regsPc [(0, 0x0B)] 0x202 (command (.step 0xAB) (base 0xC00F)).1 = true := by decide
theorem test_rnd_A31 : regsPc [(3, 0x50)] 0x202 (command (.step 0x5A) (base 0xC3F0)).1 = true := by decide

/-! Control transfer (section 2.2). -/

theorem test_ret_CT1 : nx (step (withStack (base 0x00EE 0x20E) 1 0x206))
    (fun t => t.pc == 0x206 && t.sp == 0 && t.stack[0] == 0x206#16) = true := by decide
theorem test_ret_CT4 : ft (step (withStack (base 0x00EE) 1 0x301)) (.misalignedPc 0x301) = true := by decide
theorem test_jp_CT7 : nx (step (base 0x1FFE)) (fun t => t.pc == 0xFFE) = true := by decide
theorem test_jp_CT8 : ft (step (base 0x1FFF)) (.addressOutOfBounds 0xFFF) = true := by decide
theorem test_call_CT12 : ft (step (withStack (base 0x2FFF) 16 0)) .stackOverflow = true := by decide
theorem test_call_CT14 : nx (step (base 0x2400 0xFFE))
    (fun t => t.pc == 0x400 && t.sp == 1 && t.stack[0] == 0x1000#16) = true := by decide
theorem test_jpV0_CT16 : ft (step (withV (base 0xBF00) [(0, 0xFF)])) (.addressOutOfBounds 0xFFF) = true := by decide
theorem test_jpV0_CT19 : nx (step (withV (base 0xB1FE) [(1, 0x02)])) (fun t => t.pc == 0x1FE) = true := by decide
theorem test_seImm_CT21 : nx (step (withV (base 0x3003 0x206) [(0, 0x03)])) (fun t => t.pc == 0x20A) = true := by decide
theorem test_seImm_CT23 : nx (step (base 0x3000 0xFFC)) (fun t => t.pc == 0x1000) = true := by decide
theorem test_sneImm_CT24 : nx (step (withV (base 0x4003 0x206) [(0, 0x03)])) (fun t => t.pc == 0x208) = true := by decide
theorem test_sneImm_CT25 : nx (step (withV (base 0x4003 0x206) [(0, 0x04)])) (fun t => t.pc == 0x20A) = true := by decide
theorem test_seReg_CT26 :
    nx (step (withV (base 0x5120 0x300) [(1, 0x10), (2, 0x10)])) (fun t => t.pc == 0x304) = true := by decide
theorem test_seReg_CT27 :
    nx (step (withV (base 0x5120 0x300) [(1, 0x10), (2, 0x11)])) (fun t => t.pc == 0x302) = true := by decide
theorem test_sneReg_CT29 :
    nx (step (withV (base 0x9120 0x300) [(1, 0x10), (2, 0x11)])) (fun t => t.pc == 0x304) = true := by decide
theorem test_sneReg_CT30 :
    nx (step (withV (base 0x9120 0x300) [(1, 0x10), (2, 0x10)])) (fun t => t.pc == 0x302) = true := by decide

/-! Index register and memory (section 2.3). -/

theorem test_ldI_M2 : nx (step ((base 0xA000).setI 0x1234)) (fun t => t.i == 0 && t.pc == 0x202) = true := by decide
theorem test_addI_M4 : nx (step (withV ((base 0xF01E).setI 0xFFFF) [(0, 0x01), (0xF, 0x07)]))
    (fun t => t.i == 0 && t.reg 0xF == 0x07 && t.pc == 0x202) = true := by decide
theorem test_addI_M5 :
    nx (step (withV ((base 0xF01E).setI 0x0FFF) [(0, 0x01)])) (fun t => t.i == 0x1000 && t.pc == 0x202) = true := by decide
theorem test_ldF_M7 : ∃ t, step (withV (base 0xF029) [(0, 0x05)]) = .next t ∧ t.i = BitVec.ofNat 16 (fontBase + 0x19) ∧
    t.pc = 0x202 := ⟨_, rfl, rfl, rfl⟩
theorem test_ldF_M8 : ∃ t, step (withV (base 0xF029) [(0, 0x1A)]) = .next t ∧ t.i = BitVec.ofNat 16 (fontBase + 0x32) ∧
    t.pc = 0x202 := ⟨_, rfl, rfl, rfl⟩
theorem test_ldB_M10 :
    ft (step (withV ((base 0xF033).setI 0xFFE) [(0, 0x2A)])) (.addressOutOfBounds 0x1000) = true := by decide
theorem test_ldB_M11 : nx (step (withV ((base 0xF033).setI 0x300) [(0, 0xFE)]))
    (fun t => t.mem.load 0x300 3 == [0x02#8, 0x05#8, 0x04#8] && t.pc == 0x202) = true := by decide
theorem test_ldMemVx_M16 : nx (step (withV ((base 0xF255).setI 0x300) [(0, 0x01), (1, 0x02), (2, 0x03), (3, 0x04)]))
    (fun t => t.mem.load 0x300 4 == [0x01#8, 0x02#8, 0x03#8, 0x00#8] && t.i == 0x300 && t.pc == 0x202) = true := by decide
theorem test_ldMemVx_M17 : ft (step (withV ((base 0xFF55).setI 0xFF1) [(0, 0x01)])) (.addressOutOfBounds 0x1000) = true := by decide
theorem test_ldVxMem_M20 : nx (step (withBytes ((base 0xF265).setI 0x300) 0x300 [0x02#8, 0x05#8, 0x04#8, 0x07#8]))
    (fun t => regsPc [(0, 0x02), (1, 0x05), (2, 0x04), (3, 0x00)] 0x202 t && t.i == 0x300) = true := by decide
theorem test_ldVxMem_M22 : ft (step (withV ((base 0xF165).setI 0xFFF) [(0, 0x09)])) (.addressOutOfBounds 0x1000) = true := by decide

/-! Framebuffer (section 2.4). -/

theorem test_cls_DR1 : nx (step ((base 0x00E0).setFb (lit [(0, 0), (63, 31)])))
    (fun t => t.fb == Frame.blank && t.pc == 0x202) = true := by decide
theorem test_drw_DR4 : nx (step (withBytes (((base 0xD011).setI 0x300).setFb (lit [(3, 0)])) 0x300 [0xFF#8]))
    (fun t => t.fb == lit [(0, 0), (1, 0), (2, 0), (4, 0), (5, 0), (6, 0), (7, 0)] && regsPc [(0xF, 0x01)] 0x202 t) = true := by decide
theorem test_drw_DR7 : nx (step (withV (withBytes ((base 0xD012).setI 0x300) 0x300 [0x80#8, 0x80#8]) [(0, 0x0A), (1, 0x1F)]))
    (fun t => t.fb == lit [(10, 31), (10, 0)] && regsPc [(0xF, 0x00)] 0x202 t) = true := by decide

/-! Keys and timers (section 2.5). -/

theorem test_skp_K2 : nx (step (withV (base 0xE39E) [(3, 0x07)])) (fun t => t.pc == 0x202) = true := by decide
theorem test_skp_K3 : nx (step (withV ((base 0xE39E).setKey 7 true) [(3, 0x17)])) (fun t => t.pc == 0x204) = true := by decide
theorem test_sknp_K4 : nx (step (withV ((base 0xE3A1).setKey 7 true) [(3, 0x07)]))
    (fun t => t.pc == 0x202 && t.pressed 7) = true := by decide
theorem test_sknp_K6 : nx (step (base 0xE0A1 0xFFC)) (fun t => t.pc == 0x1000) = true := by decide
theorem test_ldVxK_K7 : command (.step 0) (base 0xF30A) = (base 0xF30A, .waitingForKey) := by decide
theorem test_ldVxK_K9 : nx (step (((base 0xF30A).setKey 9 true).setKey 2 true))
    (fun t => regsPc [(3, 0x02)] 0x202 t && !t.pressed 2 && t.pressed 9) = true := by decide
theorem test_ldVxDt_K11 : nx (step ((base 0xF507).setDt 0x3C)) (regsPc [(5, 0x3C)] 0x202) = true := by decide
theorem test_ldDtVx_K12 : nx (step (withV (base 0xF515) [(5, 0x3C)])) (fun t => t.dt == 0x3C && t.st == 0 && t.pc == 0x202) = true := by decide
theorem test_ldDtVx_K13 : nx (step ((base 0xF015).setDt 0x09)) (fun t => t.dt == 0 && t.pc == 0x202) = true := by decide
theorem test_ldStVx_K14 : nx (step (withV (base 0xF518) [(5, 0x02)]))
    (fun t => t.st == 0x02 && t.dt == 0 && t.soundOn && t.pc == 0x202) = true := by decide
theorem test_tick_K15 : (((State.reset.setDt 2).setSt 1).tickTimers) = State.reset.setDt 1 := by decide
theorem test_tick_K16 : State.reset.tickTimers = State.reset := by decide

/-! Fetch and decode faults (section 2.6), host commands (section 2.7), error numbers (R211). -/

theorem test_fetch_F1 : ft (step (State.reset.setPc 0xFFE)) (.unknownInstruction 0x0000) = true := by decide
theorem test_fetch_F2 : ft (step (State.reset.setPc 0x1000)) (.addressOutOfBounds 0x1000) = true := by decide
theorem test_fetch_F4 : ft (step (State.reset.setPc 0x201)) (.misalignedPc 0x201) = true := by decide
theorem test_fetch_F5 : ft (step (State.reset.setPc 0xFFF)) (.addressOutOfBounds 0x1000) = true := by decide
theorem test_unknown_U3 : ft (step (base 0x0123)) (.unknownInstruction 0x0123) = true := by decide
theorem test_step_H2 : command (.step 0) State.reset = (State.reset, .error (.unknownInstruction 0x0000)) := by decide
theorem test_loadProgram_H4 :
    command (.loadProgram (List.replicate 0xE01 0#8)) State.reset = (State.reset, .error (.addressOutOfBounds 0x1000)) := by
  simp [command, loadProgram]
theorem test_loadProgram_H5 : command (.loadProgram []) State.reset = (State.reset, .done) := by decide
theorem test_setKey_H9 : (command (.setKey 7 true) State.reset).1.key.toList =
    [false, false, false, false, false, false, false, true, false, false, false, false, false, false, false, false] := by decide
theorem test_fault_codes : Fault.code (.addressOutOfBounds 0) = some 1 ∧ Fault.code .stackOverflow = some 2 ∧
    Fault.code .stackUnderflow = some 3 ∧ Fault.code (.unknownInstruction 0) = some 4 ∧
    Fault.code (.misalignedPc 0) = some 5 := by decide
theorem test_error_codes_of_replies :
    (command (.restoreState none) State.reset).2.errorCode = some 6 ∧ (command (.step 0) State.reset).2.errorCode = some 4 ∧
    (command .tickTimers State.reset).2.errorCode = none := by decide
theorem test_register_view : (registerView (withV State.reset [(0xA, 0x05)])).v[0xA] = 0x05#8 ∧
    (registerView State.reset).pc = 0x200 := by decide

/-- The glyph of 5 is `F0 80 F0 10 F0` (R31), at offset 25 of the font (R163). -/
theorem test_glyph_of_five : (fontGlyphs.drop 25).take 5 = [0xF0#8, 0x80#8, 0xF0#8, 0x10#8, 0xF0#8] ∧ fontGlyphs.length = 80 := by decide

/-! ### Witnesses: hypotheses of the obligations met together -/

/-- `exec i s` answers a next state: the hypothesis of the frames. -/
abbrev Completes (i : Instr) (s : State) : Prop := ∃ t, exec i s = .next t

/-- A state for the memory forms: I = 0x300, three keys and some registers set. -/
def busy : State := withV (((State.reset.setI 0x300).setKey 2 true).setKey 9 true) [(0, 0x12), (1, 0x34), (0xF, 0x07)]

theorem witness_ResetLeavesTheStatedValues :
    (∃ a, a < fontBase ∨ fontBase + 80 ≤ a) ∧ fontGlyphs[0]? = some 0xF0#8 ∧ fontGlyphs[79]? = some 0x80#8 :=
  ⟨⟨fontBase + 80, Or.inr (Nat.le_refl _)⟩, by decide, by decide⟩

theorem witness_BootFetchesTheLoadedProgram :
    (0x12#8 :: 0x00#8 :: ([] : List Byte)).length ≤ 0xE00 ∧
      (0x12#8 :: 0x00#8 :: List.replicate 0xDFE 0#8).length = 0xE00 := by simp

/-- One PC for each clause, where the ranges meet. -/
theorem witness_FetchReadsTwoBytesOrFaultsInOrder :
    0xFFF < (State.reset.setPc 0x1000).pc.toNat ∧ (State.reset.setPc 0xFFF).pc.toNat = 0xFFF ∧
    ((State.reset.setPc 0xFFD).pc.toNat ≤ 0xFFE ∧ (State.reset.setPc 0xFFD).pc.toNat % 2 = 1) ∧
    ((State.reset.setPc 0xFFE).pc.toNat ≤ 0xFFE ∧ (State.reset.setPc 0xFFE).pc.toNat % 2 = 0) := by decide

theorem witness_StepRunsTheDecodedInstruction :
    (base 0x6A05).Fetches 0x6A05 ∧ decode 0x6A05 = .ok (.ldImm 0xA 0x05) :=
  ⟨⟨by decide, by decide, by decide⟩, by decide⟩

theorem witness_UnknownWordFaultsAndChangesNothing :
    (base 0xFFFF 0xFFE).Fetches 0xFFFF ∧ decode 0xFFFF = .error (.unknownInstruction 0xFFFF) :=
  ⟨⟨by decide, by decide, by decide⟩, by decide⟩

/-- The waiting clause, and the other one by a wait that takes a key and by another instruction. -/
theorem witness_StepAnswersWaitingOnlyForTheKeyWait :
    ((base 0xF30A).Fetches 0xF30A ∧ decode 0xF30A = .ok (.ldVxK 3) ∧
      (∃ t, execWith 0 (.ldVxK 3) (base 0xF30A) = .next t) ∧ ∀ k : KeyIndex, (base 0xF30A).pressed k = false) ∧
    (((base 0xF30A).setKey 0xF true).Fetches 0xF30A ∧ (∃ t, execWith 0 (.ldVxK 3) ((base 0xF30A).setKey 0xF true) = .next t) ∧
      ¬ ∀ k : KeyIndex, ((base 0xF30A).setKey 0xF true).pressed k = false) ∧
    ((base 0xC00F).Fetches 0xC00F ∧ ∃ t, execWith 0xAB (.rnd 0 0x0F) (base 0xC00F) = .next t) :=
  ⟨⟨⟨by decide, by decide, by decide⟩, by decide, ⟨_, rfl⟩, by decide⟩,
    ⟨⟨by decide, by decide, by decide⟩, ⟨_, rfl⟩, by decide⟩,
    ⟨by decide, by decide, by decide⟩, ⟨_, rfl⟩⟩

theorem witness_ErrorsChangeNothingAndRecur :
    command (.step 0) State.reset = (State.reset, .error (.unknownInstruction 0x0000)) := test_step_H2

theorem witness_OnlyRndReadsTheRandomByte :
    (base 0x6A05).Fetches 0x6A05 ∧ decode 0x6A05 = .ok (.ldImm 0xA 0x05) ∧
      (∀ x kk, Instr.ldImm 0xA 0x05 ≠ .rnd x kk) ∧ ∃ t, step (base 0x6A05) = .next t :=
  ⟨⟨by decide, by decide, by decide⟩, by decide, by simp, ⟨_, rfl⟩⟩

theorem witness_SelfJumpSpinsForever :
    (base 0x1FFE 0xFFE).Fetches 0x1FFE ∧ (0x1FFE#16).toNat = 0x1000 + (base 0x1FFE 0xFFE).pc.toNat :=
  ⟨⟨by decide, by decide, by decide⟩, by decide⟩

/-- Every row of the two maps has words, the row's own value and the one with every field bit set. -/
theorem witness_OpcodeMapDecodesFamilies0To7 :
    (opcodeTable.take 9).all (fun r => r.accepts r.value && r.accepts (r.value ||| ~~~ r.mask)) = true := by decide

theorem witness_OpcodeMapDecodesFamilies8ToF :
    (opcodeTable.drop 9).all (fun r => r.accepts r.value && r.accepts (r.value ||| ~~~ r.mask)) = true := by decide

/-- A word is accepted by a row (both hypotheses of the first clause, with r = q), and some word is instruction. -/
theorem witness_OpcodeMapIsUnambiguousAndTheDecoders :
    (⟨0xF0FF#16, 0xE09E#16, "SKP_Vx"⟩ : OpcodeRow) ∈ opcodeTable ∧
      (⟨0xF0FF#16, 0xE09E#16, "SKP_Vx"⟩ : OpcodeRow).accepts 0xEF9E#16 = true := by decide

theorem witness_DecodeAndEncodeAreInverse : decode 0xFF65#16 = .ok (.ldVxMem 0xF) := by decide

theorem witness_LoadImmediateAndCopyRegister :
    0x6FFF#16 &&& 0xF000#16 = 0x6000#16 ∧ 0x8FF0#16 &&& 0xF00F#16 = 0x8000#16 := by decide

/-- The frame's instructions complete (every one on every state; here one of each shape). -/
theorem witness_AluFrame :
    (Completes (.rnd 0xF 0x0F) busy ∧ Instr.rnd 0xF 0x0F ∈ [Instr.ldImm 0xF 0x0F, .addImm 0xF 0x0F, .ldReg 0xF 1,
      .orReg 0xF 1, .andReg 0xF 1, .xorReg 0xF 1, .rnd 0xF 0x0F]) ∧
    (Completes (.shl 0xF 1) busy ∧ Instr.shl 0xF 1 ∈ [Instr.addReg 0xF 1, .sub 0xF 1, .shr 0xF 1, .subn 0xF 1, .shl 0xF 1]) :=
  ⟨⟨⟨_, rfl⟩, by decide⟩, ⟨_, rfl⟩, by decide⟩

/-- One target for each clause, where the ranges meet, for both jumps: JP, then JP V0 with V0 = 0xFF. -/
theorem witness_JumpsGoToCheckedTargets :
    ((0xFFE#12).toNat ≤ 0xFFE ∧ (0xFFE#12).toNat % 2 = 0) ∧ 0xFFE < (0xFFF#12).toNat ∧
    ((0xFFD#12).toNat ≤ 0xFFE ∧ (0xFFD#12).toNat % 2 = 1) ∧
    ((0xEFF#12).toNat + ((withV State.reset [(0, 0xFF)]).reg 0).toNat ≤ 0xFFE ∧
      ((0xEFF#12).toNat + ((withV State.reset [(0, 0xFF)]).reg 0).toNat) % 2 = 0) ∧
    0xFFE < (0xF00#12).toNat + ((withV State.reset [(0, 0xFF)]).reg 0).toNat ∧
    ((0xEFE#12).toNat + ((withV State.reset [(0, 0xFF)]).reg 0).toNat ≤ 0xFFE ∧
      ((0xEFE#12).toNat + ((withV State.reset [(0, 0xFF)]).reg 0).toNat) % 2 = 1) := by decide

/-- SP = 15, 16 and 17, and the three kinds of target. -/
theorem witness_CallPushesTheReturnAddress :
    ((withStack State.reset 15 0).sp.toNat < 16 ∧ (0xFFE#12).toNat ≤ 0xFFE ∧ (0xFFE#12).toNat % 2 = 0) ∧
    (withStack State.reset 16 0).sp.toNat = 16 ∧
    ((withStack State.reset 15 0).sp.toNat < 16 ∧ 0xFFE < (0xFFF#12).toNat) ∧
    ((withStack State.reset 15 0).sp.toNat < 16 ∧ (0xFFD#12).toNat ≤ 0xFFE ∧ (0xFFD#12).toNat % 2 = 1) ∧
    16 < (withStack State.reset 17 0).sp.toNat := by decide

/-- SP = 0, 17, 16 (a zero target), and 1 with the three kinds of target. -/
theorem witness_ReturnPopsTheReturnAddress :
    State.reset.sp.toNat = 0 ∧ 16 < (withStack State.reset 17 0).sp.toNat ∧
    (withStack State.reset 16 0).sp.toNat = (15 : Fin 16).val + 1 ∧
    (∀ w ∈ [0xFFE#16, 0x1000#16, 0xFFF#16, 0xFFD#16], (withStack State.reset 1 w).sp.toNat = (0 : Fin 16).val + 1 ∧
      w = (withStack State.reset 1 w).stack[(0 : Fin 16).val]) ∧
    ((0xFFE#16).toNat ≤ 0xFFE ∧ (0xFFE#16).toNat % 2 = 0) ∧ 0xFFE < (0xFFF#16).toNat ∧
    ((0xFFD#16).toNat ≤ 0xFFE ∧ (0xFFD#16).toNat % 2 = 1) :=
  ⟨by decide, by decide, by decide, fun _ _ => ⟨rfl, rfl⟩, by decide, by decide, by decide⟩

theorem witness_ReturnUndoesCall :
    (State.reset.setPc 0xFFC).pc.toNat + 2 ≤ 0xFFE ∧ (State.reset.setPc 0xFFC).pc.toNat % 2 = 0 ∧
      Completes (.call 0x300) (State.reset.setPc 0xFFC) := ⟨by decide, by decide, ⟨_, rfl⟩⟩

theorem witness_SkipsOnImmediate :
    (0x3FFF#16 &&& 0xF000#16 = 0x3000#16 ∧ 0x4FFF#16 &&& 0xF000#16 = 0x4000#16) ∧ (busy.setPc 0xFFC).pc = 0x0FFC#16 ∧
    (Completes (.seImm 1 0x34) (busy.setPc 0xFFC) ∧ busy.reg 1 = 0x34) ∧
    (Completes (.sneImm 1 0x35) (busy.setPc 0xFFC) ∧ busy.reg 1 ≠ 0x35) :=
  ⟨by decide, by decide, ⟨⟨_, rfl⟩, by decide⟩, ⟨_, rfl⟩, by decide⟩

theorem witness_SkipsOnRegistersAndKeys : (7 : KeyIndex).val = ((withV State.reset [(3, 0x17)]).reg 3).toNat % 16 := by decide

/-- Every instruction of the frame completes on one state. -/
theorem witness_ControlFrame :
    Completes .ret (withStack State.reset 1 0x206) ∧ Completes (.jp 0x300) busy ∧ Completes (.call 0x300) busy ∧
    Completes (.jpV0 0x300) busy ∧ Completes (.seImm 1 0x34) busy ∧ Completes (.sneImm 1 0x34) busy ∧
    Completes (.seReg 1 2) busy ∧ Completes (.sneReg 1 2) busy ∧ Completes (.skp 1) busy ∧ Completes (.sknp 1) busy :=
  ⟨⟨_, rfl⟩, ⟨_, rfl⟩, ⟨_, rfl⟩, ⟨_, rfl⟩, ⟨_, rfl⟩, ⟨_, rfl⟩, ⟨_, rfl⟩, ⟨_, rfl⟩, ⟨_, rfl⟩, ⟨_, rfl⟩⟩

theorem witness_LoadIndexImmediate : 0xAFFF#16 &&& 0xF000#16 = 0xA000#16 := by decide

/-- The last address that fits and the first that does not, with a canonical memory. -/
theorem witness_StoreDecimalDigits :
    (State.reset.setI 0xFFD).mem.wf = true ∧ (State.reset.setI 0xFFD).i.toNat + 3 ≤ 0x1000 ∧
    0x1000 < (State.reset.setI 0xFFE).i.toNat + 3 ∧ 0x1000 < (State.reset.setI 0xFFFF).i.toNat + 3 := by decide

theorem witness_StoreRegistersThroughIndex :
    (State.reset.setI 0xFF0).mem.wf = true ∧ (State.reset.setI 0xFF0).i.toNat + (0xF : Reg).val + 1 ≤ 0x1000 ∧
    0x1000 < (State.reset.setI 0xFF1).i.toNat + (0xF : Reg).val + 1 ∧
    (State.reset.setI 0xFFF).i.toNat + (0 : Reg).val + 1 ≤ 0x1000 ∧
    0x1000 < (State.reset.setI 0x1000).i.toNat + (0 : Reg).val + 1 := by decide

theorem witness_LoadRegistersThroughIndex :
    (State.reset.setI 0xFF0).i.toNat + (0xF : Reg).val + 1 ≤ 0x1000 ∧
    0x1000 < (State.reset.setI 0xFF1).i.toNat + (0xF : Reg).val + 1 := by decide

theorem witness_IndexAndMemoryFrame :
    Completes (.ldI 0x300) busy ∧ Completes (.addI 1) busy ∧ Completes (.ldF 1) busy ∧ Completes (.ldB 1) busy ∧
    Completes (.ldMemVx 1) busy ∧ Completes (.ldVxMem 1) busy ∧ (1 : Reg) < 2 :=
  ⟨⟨_, rfl⟩, ⟨_, rfl⟩, ⟨_, rfl⟩, ⟨_, rfl⟩, ⟨_, rfl⟩, ⟨_, rfl⟩, by decide⟩

/-- `F155` at the last PC the statement allows, storing over the last word. -/
theorem witness_StoredBytesAreFetchedNext :
    let s := (base 0xF155 0xFFC).setI 0xFFE
    s.mem.wf = true ∧ s.pc.toNat % 2 = 0 ∧ s.pc.toNat + 2 ≤ 0xFFE ∧ s.i.toNat = s.pc.toNat + 2 ∧ 1 ≤ (1 : Reg).val ∧
      Completes (.ldMemVx 1) s := ⟨by decide, by decide, by decide, by decide, by decide, ⟨_, rfl⟩⟩

theorem witness_ClearScreen : 0x00E0#16 &&& 0xFFFF#16 = 0x00E0#16 ∧ 63 < 64 ∧ 31 < 32 := by decide

/-- A one-row sprite at (63, 31), whose second pixel wraps to (0, 31), which is lit. -/
def spriteAtEdge : State :=
  withV (withBytes ((State.reset.setI 0xFFF).setFb (lit [(0, 31)])) 0xFFF [0xC0#8]) [(0, 0x3F), (1, 0x1F)]

/-- With n = 0 at any I, n = 15 up to the last address; one address further; a pixel covered and one not; a
collision and none. -/
theorem witness_DrawXorsTheSpriteAndReportsCollision :
    ((0 : Fin 16).val = 0 ∨ (State.reset.setI 0xFFFF).i.toNat + (0 : Fin 16).val ≤ 0x1000) ∧
    ((15 : Fin 16).val ≠ 0 ∧ (State.reset.setI 0xFF1).i.toNat + (15 : Fin 16).val ≤ 0x1000) ∧
    ((15 : Fin 16).val ≠ 0 ∧ 0x1000 < (State.reset.setI 0xFF2).i.toNat + (15 : Fin 16).val) ∧
    spriteAtEdge.SpriteCovers 0 1 1 0 31 ∧ ¬ spriteAtEdge.SpriteCovers 0 1 0 0 31 ∧
    spriteAtEdge.Collides 0 1 1 ∧ ¬ spriteAtEdge.Collides 0 1 0 :=
  ⟨by decide, by decide, by decide, ⟨0, 1, by decide, by decide, by decide, by decide, by decide⟩,
    fun ⟨_, _, h, _⟩ => absurd h (Nat.not_lt_zero _),
    ⟨0, 31, by decide, by decide, ⟨0, 1, by decide, by decide, by decide, by decide, by decide⟩, by decide⟩,
    fun ⟨_, _, _, _, ⟨_, _, h, _⟩, _⟩ => absurd h (Nat.not_lt_zero _)⟩

theorem witness_DisplayFrame : Completes .cls busy ∧ Completes (.drw 0 1 1) busy := ⟨⟨_, rfl⟩, ⟨_, rfl⟩⟩

/-- Keys 2 and 9 pressed, the least of them; no key pressed. -/
theorem witness_KeyWaitTakesTheLeastKey :
    (busy.pressed 2 = true ∧ ∀ j < (2 : KeyIndex), busy.pressed j = false) ∧
      ∀ k : KeyIndex, State.reset.pressed k = false := by decide

theorem witness_DelayTimerReadAndWrite :
    0xFF07#16 &&& 0xF0FF#16 = 0xF007#16 ∧ 0xFF15#16 &&& 0xF0FF#16 = 0xF015#16 := by decide

theorem witness_KeyAndTimerFrame :
    Completes (.ldVxK 1) busy ∧ Completes (.ldVxK 1) State.reset ∧ Completes (.ldVxDt 1) busy ∧
    Completes (.ldDtVx 1) busy ∧ Completes (.ldStVx 1) busy ∧
    ((∃ j < (9 : KeyIndex), busy.pressed j = true) ∨ busy.pressed 9 = false) :=
  ⟨⟨_, rfl⟩, ⟨_, rfl⟩, ⟨_, rfl⟩, ⟨_, rfl⟩, ⟨_, rfl⟩, by decide⟩

theorem witness_LoadProgramCopiesAllOrNothing :
    State.reset.mem.wf = true ∧ (List.replicate 0xE00 (0x60#8 : Byte)).length ≤ 0xE00 ∧
    (List.replicate 0xE00 (0x60#8 : Byte))[0]? = some 0x60#8 ∧
    0xE00 < (List.replicate 0xE01 (0x60#8 : Byte)).length := ⟨by decide, by simp, rfl, by simp⟩

/-- The first and the last pixel. -/
theorem witness_ViewsShowTheStateAndChangeNothing : (0 < 64 ∧ 0 < 32) ∧ 63 < 64 ∧ 31 < 32 ∧ 31 * 64 + 63 < 2048 := by decide

theorem witness_CaptureCopiesTheWholeState : 0 < 4096 ∧ 4095 < 4096 := by decide

/-- A reachable state that is not the reset state, with an entry on the stack. -/
theorem witness_RestoreOfCaptureIsTheState : ((withStack (base 0x1202 0xFFE) 16 0x202).Inv) ∧ State.reset.Inv := by decide

/-- A snapshot of the right sizes: all zero, SP and PC as given. -/
def snapshotWith (sp : Byte) (pc : Word) : Snapshot :=
  { mem := List.replicate 4096 0#8, v := List.replicate 16 0#8, i := 0xFFFF#16, pc := pc, sp := sp,
    stack := List.replicate 16 0#16, dt := 0#8, st := 0#8, fb := List.replicate 32 0#64, key := List.replicate 16 false }

/-- H6, H7 and H8 of the spec's vectors: SP = 17 and an odd PC, refused; SP = 16, PC = 0x1000 and I = 0xFFFF. -/
theorem witness_RestoreRejectsExactlyMalformedSnapshots :
    16 < (snapshotWith 17 0x200).sp.toNat ∧ (snapshotWith 0 0x203).pc.toNat % 2 = 1 ∧
    ({ snapshotWith 0 0x200 with mem := [] } : Snapshot).mem.length ≠ 4096 ∧
    ((snapshotWith 16 0x1000).mem.length = 4096 ∧ (snapshotWith 16 0x1000).v.length = 16 ∧
      (snapshotWith 16 0x1000).stack.length = 16 ∧ (snapshotWith 16 0x1000).fb.length = 32 ∧
      (snapshotWith 16 0x1000).key.length = 16 ∧ (snapshotWith 16 0x1000).sp.toNat ≤ 16 ∧
      (snapshotWith 16 0x1000).pc.toNat % 2 = 0) :=
  ⟨by decide, by decide, by decide, by simp [snapshotWith]⟩

theorem witness_StepKeepsTheInvariant :
    (withStack (base 0x2400 0xFFE) 15 0).Inv ∧ ∃ t, step (withStack (base 0x2400 0xFFE) 15 0) = .next t :=
  ⟨by decide, ⟨_, rfl⟩⟩

theorem witness_CommandsKeepTheInvariant : (withStack (base 0x2400 0xFFE) 15 0).Inv := by decide

theorem witness_ReachableStatesMeetTheInvariant :
    State.reset.Reachable ∧ (State.reset.setKey 7 true).Reachable := ⟨⟨[], rfl⟩, ⟨[.setKey 7 true], rfl⟩⟩

/-- The last PC that fetches, by a skip that is taken. -/
theorem witness_PcNeverWraps : ∃ t, step (base 0x3000 0xFFE) = .next t ∧ t.pc.toNat = 0x1002 := ⟨_, rfl, by decide⟩

theorem witness_PcAdvancesInFourWays :
    (busy.setPc 0xFFE).pc.toNat ≤ 0xFFE ∧ Completes (.jp 0x300) (busy.setPc 0xFFE) ∧
    Completes (.skp 1) (busy.setPc 0xFFE) ∧ Completes (.ldVxK 1) (busy.setPc 0xFFE) ∧
    Completes (.ldVxK 1) State.reset ∧ Completes (.ldReg 0 1) (busy.setPc 0xFFE) :=
  ⟨by decide, ⟨_, rfl⟩, ⟨_, rfl⟩, ⟨_, rfl⟩, ⟨_, rfl⟩, ⟨_, rfl⟩⟩

/-- An instruction that changes each part. -/
theorem witness_EachPartOfTheStateHasItsWriters :
    nx (exec (.ldMemVx 1) busy) (fun t => t.mem != busy.mem) = true ∧
    nx (exec (.addI 1) busy) (fun t => t.i != busy.i) = true ∧
    nx (exec (.call 0x300) busy) (fun t => t.sp != busy.sp && t.stack != busy.stack) = true ∧
    nx (exec (.ldDtVx 1) busy) (fun t => t.dt != busy.dt) = true ∧
    nx (exec (.ldStVx 1) busy) (fun t => t.st != busy.st) = true ∧
    nx (exec .cls spriteAtEdge) (fun t => t.fb != spriteAtEdge.fb) = true ∧
    nx (exec (.ldVxK 1) busy) (fun t => t.key != busy.key) = true := by decide

theorem witness_VfIsWrittenOnlyAsFlagOrDestination :
    nx (exec (.addReg 0 1) busy) (fun t => t.reg 0xF != busy.reg 0xF) = true ∧
    nx (exec (.ldVxMem 0xF) busy) (fun t => t.reg 0xF != busy.reg 0xF) = true := by decide

/-- Each error of the statement occurs, in states that meet the invariant. -/
theorem witness_EngineErrorsHaveTheirSources :
    State.reset.Inv ∧ (withStack State.reset 16 0).Inv ∧ (State.reset.setI 0xFFFF).Inv ∧
    ft (exec (.call 0x300) (withStack State.reset 16 0)) .stackOverflow = true ∧
    ft (exec .ret State.reset) .stackUnderflow = true ∧
    ft (exec (.jp 0x301) State.reset) (.misalignedPc 0x301) = true ∧
    ft (exec (.ldB 0) (State.reset.setI 0xFFFF)) (.addressOutOfBounds 0xFFFF) = true := by decide

end Sys2Proof.Tests
end

section
/-! The laws of the `step` command and of the host's views, and the statements O6, O7, O49 and O50. -/
namespace Sys2Proof.Machine

/-! ### Fetch and decode -/

/-- A fetched word that decodes gives its instruction. -/
theorem fetchDecode_of_decode {s : State} {ins : Word} {i : Instr} (hf : s.Fetches ins) (hd : decode ins = .ok i) :
    fetchDecode s = .ok i := by
  simp [fetchDecode, fetch_of_fetches hf, hd]

/-- A fetched word that does not decode gives `UnknownInstruction` with the raw word (R93). -/
theorem fetchDecode_of_reject {s : State} {ins : Word} {r : DecodeReject} (hf : s.Fetches ins)
    (hd : decode ins = .error r) : fetchDecode s = .error (.unknownInstruction ins) := by
  simp [fetchDecode, fetch_of_fetches hf, hd]

/-! ### The answers of the `step` command -/

/-- A fetch or decode error is the outcome of the step. -/
theorem step_of_fetchDecode_error {s : State} {e : Fault} (h : fetchDecode s = .error e) : step s = .fault e := by
  simp [step, h, raise]

/-- A fetch or decode error is answered with the state as it was (R97). -/
theorem stepCommand_of_fetchDecode_error (rand8 : Byte) {s : State} {e : Fault} (h : fetchDecode s = .error e) :
    stepCommand rand8 s = (s, .error e) := by
  simp [stepCommand, h]

/-- An instruction that completes is answered with its next state, and `waitsForKey` tells the answer (R96). -/
theorem stepCommand_of_next {rand8 : Byte} {s t : State} {i : Instr} (hi : fetchDecode s = .ok i)
    (ht : execWith rand8 i s = .next t) :
    stepCommand rand8 s = (t, if waitsForKey i s then .waitingForKey else .executed) := by
  simp [stepCommand, hi, ht]

/-! ### When a step waits for a key -/

/-- There is no least pressed key exactly when no key is pressed. -/
theorem State.firstPressed_eq_none_iff (s : State) :
    s.firstPressed = none ↔ ∀ k : KeyIndex, s.pressed k = false := by
  simp [State.firstPressed, List.find?_eq_none]

/-- Only `FX0A` waits, and only when no key is pressed (R96). -/
theorem waitsForKey_iff (i : Instr) (s : State) :
    waitsForKey i s = true ↔ (∃ x, i = .ldVxK x) ∧ ∀ k : KeyIndex, s.pressed k = false := by
  cases i with
  | ldVxK x => simp [waitsForKey, State.firstPressed_eq_none_iff]
  | _ => simp [waitsForKey]

/-! ### What the views answer -/

@[simp] theorem framebufferBits_length (s : State) : (framebufferBits s).length = 2048 := by
  simp [framebufferBits]

/-- Bit `y*64 + x` of the framebuffer view is the pixel (x, y) (R100). -/
theorem framebufferBits_getElem?_rowMajor (s : State) {x y : Nat} (hx : x < 64) (hy : y < 32) :
    (framebufferBits s)[y * 64 + x]? = some (s.fb.pixel x y) := by
  have hbit : y * 64 + x < 2048 := by omega
  have hcol : (y * 64 + x) % 64 = x := by omega
  have hrow : (y * 64 + x) / 64 = y := by omega
  simp [framebufferBits, hbit, hcol, hrow]

/-- Byte `k` of a run of bytes that is loaded. -/
theorem Memory.load_getElem?_of_lt (m : Memory) (a : Nat) {n k : Nat} (hk : k < n) :
    (m.load a n)[k]? = some (m.read (a + k)) := by
  rw [List.getElem?_eq_getElem (by simpa using hk), Memory.load_getElem]

/-- The bytes of a capture are all of memory, in order (R103). -/
theorem captureState_mem (s : State) : (captureState s).mem = s.mem.load 0 4096 := by
  simp only [captureState]

/-! ### The statements -/

/-- Settles O6: the decoder's rejection becomes the fetch's error, which both the step and the command pass on. -/
theorem unknownWordFaultsAndChangesNothing : Obligations.UnknownWordFaultsAndChangesNothing := by
  intro s ins r rand8 hf hd
  have herr : fetchDecode s = .error (.unknownInstruction ins) := fetchDecode_of_reject hf hd
  exact ⟨step_of_fetchDecode_error herr, stepCommand_of_fetchDecode_error rand8 herr⟩

/-- Settles O7: the command answers by `waitsForKey`, which holds exactly for `FX0A` with no key pressed. -/
theorem stepAnswersWaitingOnlyForTheKeyWait : Obligations.StepAnswersWaitingOnlyForTheKeyWait := by
  intro s t ins i rand8 hf hd ht
  have hcmd : command (.step rand8) s = (t, if waitsForKey i s then .waitingForKey else .executed) :=
    stepCommand_of_next (fetchDecode_of_decode hf hd) ht
  rw [hcmd, ← waitsForKey_iff]
  exact ⟨fun hwait => by rw [if_pos hwait], fun hwait => by rw [if_neg hwait]⟩

/-- Settles O49, by the row-major law of the framebuffer view; the register view is the tuple itself. -/
theorem viewsShowTheStateAndChangeNothing : Obligations.ViewsShowTheStateAndChangeNothing := by
  intro s
  exact ⟨⟨framebufferBits s, rfl, framebufferBits_length s,
    fun _ _ hx hy => framebufferBits_getElem?_rowMajor s hx hy⟩, rfl⟩

/-- Settles O50: the memory of the capture is the load of all 4096 bytes, every other component is copied as it is. -/
theorem captureCopiesTheWholeState : Obligations.CaptureCopiesTheWholeState := by
  intro s
  refine ⟨captureState s, rfl, ?_, ?_, rfl, rfl, rfl, rfl, rfl, rfl, rfl, rfl, rfl⟩
  · rw [captureState_mem, Memory.load_length]
  · intro a ha
    rw [captureState_mem, Memory.load_getElem?_of_lt _ _ ha, Nat.zero_add]

end Sys2Proof.Machine
end

section
/-! The rows of the opcode map read backwards, from a masked word to its fields, with the fields of R14 as numbers,
and the statement O17. -/
namespace Sys2Proof.Machine

/-! ### The fields of R14 as numbers are the decoder's fields -/

theorem fieldX_eq_wordX (w : Word) : fieldX w = wordX w := Fin.ext (fieldX_val w)

theorem fieldY_eq_wordY (w : Word) : fieldY w = wordY w := Fin.ext (fieldY_val w)

theorem fieldKk_eq_wordKk (w : Word) : fieldKk w = wordKk w :=
  BitVec.eq_of_toNat_eq ((fieldKk_toNat w).trans (BitVec.toNat_ofNat w.toNat 8).symm)

/-! ### What a masked word says of the fields -/

/-- A row with mask `F000` fixes the family. -/
theorem fieldF_of_and_F000 {w : Word} {f : BitVec 4} (h : w &&& 0xF000#16 = packNnn f 0#12) : fieldF w = f := by
  have hpack : packNnn (fieldF w) 0#12 = packNnn f 0#12 := (and_F000 w).symm.trans h
  simpa using congrArg fieldF hpack

/-- A row with mask `F00F` fixes the family and the low nibble. -/
theorem fields_of_and_F00F {w : Word} {f : BitVec 4} {n : Fin 16} (h : w &&& 0xF00F#16 = packXyn f 0 0 n) :
    fieldF w = f ∧ fieldN w = n := by
  have hpack : packXyn (fieldF w) 0 0 (fieldN w) = packXyn f 0 0 n := (and_F00F w).symm.trans h
  exact ⟨by simpa using congrArg fieldF hpack, by simpa using congrArg fieldN hpack⟩

/-! ### LD Vx, kk and LD Vx, Vy -/

/-- Family 6 is LD Vx, kk (R75). -/
theorem decode_of_family6 {w : Word} (hf : fieldF w = 0x6#4) : decode w = .ok (.ldImm (fieldX w) (fieldKk w)) := by
  simp [decode, hf]

/-- Family 8 goes to the decoder of the arithmetic words (R75). -/
theorem decode_of_family8 {w : Word} (hf : fieldF w = 0x8#4) : decode w = decodeArith w := by
  simp [decode, hf]

/-- Sub-opcode 0 of family 8 is LD Vx, Vy (R75). -/
theorem decodeArith_of_fieldN_zero {w : Word} (hn : fieldN w = 0) :
    decodeArith w = .ok (.ldReg (fieldX w) (fieldY w)) := by
  simp [decodeArith, hn]

/-- `6XKK` decodes to LD Vx, kk (R74, R111). -/
theorem decodesAs_ldImm : DecodesAs 0xF000#16 0x6000#16 (fun w => .ldImm (wordX w) (wordKk w)) := by
  intro w hw
  have hf : fieldF w = 0x6#4 := fieldF_of_and_F000 hw
  rw [decode_of_family6 hf, fieldX_eq_wordX, fieldKk_eq_wordKk]

/-- `8XY0` decodes to LD Vx, Vy (R74, R113). -/
theorem decodesAs_ldReg : DecodesAs 0xF00F#16 0x8000#16 (fun w => .ldReg (wordX w) (wordY w)) := by
  intro w hw
  obtain ⟨hf, hn⟩ : fieldF w = 0x8#4 ∧ fieldN w = 0 := fields_of_and_F00F hw
  rw [decode_of_family8 hf, decodeArith_of_fieldN_zero hn, fieldX_eq_wordX, fieldY_eq_wordY]

/-- LD Vx, kk writes the register and advances, on every state (R111). -/
theorem exec_ldImm (x : Reg) (kk : Byte) (s : State) : exec (.ldImm x kk) s = .next (s.setReg x kk).advance := rfl

/-- LD Vx, Vy writes the register and advances, on every state (R113). -/
theorem exec_ldReg (x y : Reg) (s : State) : exec (.ldReg x y) s = .next (s.setReg x (s.reg y)).advance := rfl

/-- A register write followed by the sequential advance, as one record update. -/
theorem State.advance_setReg (s : State) (x : Reg) (b : Byte) :
    (s.setReg x b).advance = { s with v := s.v.set x.val b, pc := s.pc + 2#16 } := rfl

/-- Settles O17: the masked word fixes the decoder's fields, and both instructions are one register write and the
sequential advance. -/
theorem loadImmediateAndCopyRegister : Obligations.LoadImmediateAndCopyRegister := by
  refine ⟨decodesAs_ldImm, decodesAs_ldReg, fun x y kk s => ⟨?_, ?_⟩⟩
  · rw [exec_ldImm, State.advance_setReg]
  · rw [exec_ldReg, State.advance_setReg, State.reg]

end Sys2Proof.Machine
end

section
/-! A fetch from above memory, the skip as one record update, and the statement O29. -/
namespace Sys2Proof.Machine

/-! ### Fetch from above memory -/

/-- A PC above 0xFFF is the first address out of bounds (R92). -/
theorem fetch_of_pc_above {s : State} (h : 0xFFF < s.pc.toNat) :
    fetch s = .error (.addressOutOfBounds s.pc.toNat) := by
  simp [fetch, memRead_outside _ h]

/-- The fetch's error is the fetch-and-decode's error. -/
theorem fetchDecode_of_fetch_error {s : State} {e : Fault} (h : fetch s = .error e) : fetchDecode s = .error e := by
  simp [fetchDecode, h]

/-- A step from a PC above 0xFFF raises that PC (R92). -/
theorem step_of_pc_above {s : State} (h : 0xFFF < s.pc.toNat) : step s = .fault (.addressOutOfBounds s.pc.toNat) :=
  step_of_fetchDecode_error (fetchDecode_of_fetch_error (fetch_of_pc_above h))

/-! ### The skip -/

/-- A skip on the truth of `p`, as one record update (R145). -/
theorem State.skipIf_eq_of_iff (s : State) {c : Bool} {p : Prop} [Decidable p] (hc : c = true ↔ p) :
    s.skipIf c = { s with pc := if p then s.pc + 4#16 else s.pc + 2#16 } := by
  by_cases hp : p
  · rw [if_pos hp, hc.2 hp, State.skipIf, if_pos rfl]
  · rw [if_neg hp, State.skipIf, if_neg (mt hc.1 hp)]

/-- A skip taken at 0xFFC is not checked: it leaves PC just above memory (R145). -/
theorem State.pc_skipIf_true_of_pc_0FFC {s : State} (h : s.pc = 0x0FFC#16) : (s.skipIf true).pc = 0x1000#16 := by
  simp [h]

/-- The step after a skip taken at 0xFFC raises the address above memory (R92, R145). -/
theorem step_skipIf_true_of_pc_0FFC {s : State} (h : s.pc = 0x0FFC#16) :
    step (s.skipIf true) = .fault (.addressOutOfBounds 0x1000) := by
  have hpc : (s.skipIf true).pc.toNat = 0x1000 := by rw [State.pc_skipIf_true_of_pc_0FFC h]; rfl
  rw [step_of_pc_above (by omega), hpc]

/-! ### SE Vx, kk and SNE Vx, kk -/

/-- Family 3 is SE Vx, kk (R75). -/
theorem decode_of_family3 {w : Word} (hf : fieldF w = 0x3#4) : decode w = .ok (.seImm (fieldX w) (fieldKk w)) := by
  simp [decode, hf]

/-- Family 4 is SNE Vx, kk (R75). -/
theorem decode_of_family4 {w : Word} (hf : fieldF w = 0x4#4) : decode w = .ok (.sneImm (fieldX w) (fieldKk w)) := by
  simp [decode, hf]

/-- `3XKK` decodes to SE Vx, kk (R74, R146). -/
theorem decodesAs_seImm : DecodesAs 0xF000#16 0x3000#16 (fun w => .seImm (wordX w) (wordKk w)) := by
  intro w hw
  have hf : fieldF w = 0x3#4 := fieldF_of_and_F000 hw
  rw [decode_of_family3 hf, fieldX_eq_wordX, fieldKk_eq_wordKk]

/-- `4XKK` decodes to SNE Vx, kk (R74, R147). -/
theorem decodesAs_sneImm : DecodesAs 0xF000#16 0x4000#16 (fun w => .sneImm (wordX w) (wordKk w)) := by
  intro w hw
  have hf : fieldF w = 0x4#4 := fieldF_of_and_F000 hw
  rw [decode_of_family4 hf, fieldX_eq_wordX, fieldKk_eq_wordKk]

/-- SE Vx, kk skips on equality, on every state (R146). -/
theorem exec_seImm (x : Reg) (kk : Byte) (s : State) : exec (.seImm x kk) s = .next (s.skipIf (s.reg x == kk)) := rfl

/-- SNE Vx, kk skips on difference, on every state (R147). -/
theorem exec_sneImm (x : Reg) (kk : Byte) (s : State) : exec (.sneImm x kk) s = .next (s.skipIf (s.reg x != kk)) := rfl

/-- SE Vx, kk with its condition true, or SNE Vx, kk with its own, is the taken skip (R146, R147). -/
theorem eq_skipIf_true_of_taken {x : Reg} {kk : Byte} {s t : State}
    (h : (exec (.seImm x kk) s = .next t ∧ s.reg x = kk) ∨ (exec (.sneImm x kk) s = .next t ∧ s.reg x ≠ kk)) :
    t = s.skipIf true := by
  obtain ⟨ht, heq⟩ | ⟨ht, hne⟩ := h
  · rw [exec_seImm, beq_iff_eq.2 heq, Host.Outcome.next.injEq] at ht
    exact ht.symm
  · rw [exec_sneImm, bne_iff_ne.2 hne, Host.Outcome.next.injEq] at ht
    exact ht.symm

/-- Settles O29: both instructions are one skip on the compared bytes, and the skip taken at 0xFFC leaves a PC that
the next fetch refuses. -/
theorem skipsOnImmediate : Obligations.SkipsOnImmediate := by
  refine ⟨decodesAs_seImm, decodesAs_sneImm, fun x kk s => ⟨?_, ?_, fun hpc t htaken => ?_⟩⟩
  · rw [exec_seImm, State.skipIf_eq_of_iff s beq_iff_eq]
  · rw [exec_sneImm, State.skipIf_eq_of_iff s bne_iff_ne]
  · rw [eq_skipIf_true_of_taken htaken]
    exact ⟨State.pc_skipIf_true_of_pc_0FFC hpc, step_skipIf_true_of_pc_0FFC hpc⟩

end Sys2Proof.Machine
end

section
/-! LD I, nnn, its row of the opcode map read backwards and its effect, and the statement O32. -/
namespace Sys2Proof.Machine

/-- The decoder's address field is that of R14. -/
theorem fieldNnn_eq_wordNnn (w : Word) : fieldNnn w = wordNnn w :=
  BitVec.eq_of_toNat_eq ((fieldNnn_toNat w).trans (BitVec.toNat_ofNat w.toNat 12).symm)

/-- Family A is LD I, nnn (R75). -/
theorem decode_of_familyA {w : Word} (hf : fieldF w = 0xA#4) : decode w = .ok (.ldI (fieldNnn w)) := by
  simp [decode, hf]

/-- `ANNN` decodes to LD I, nnn (R74, R161). -/
theorem decodesAs_ldI : DecodesAs 0xF000#16 0xA000#16 (fun w => .ldI (wordNnn w)) := by
  intro w hw
  have hf : fieldF w = 0xA#4 := fieldF_of_and_F000 hw
  rw [decode_of_familyA hf, fieldNnn_eq_wordNnn]

/-- LD I, nnn writes the zero-extended address and advances, on every state (R161). -/
theorem exec_ldI (nnn : Addr12) (s : State) : exec (.ldI nnn) s = .next (s.setI (zext16 nnn)).advance := rfl

/-- A write of I followed by the sequential advance, as one record update. -/
theorem State.advance_setI (s : State) (w : Word) : (s.setI w).advance = { s with i := w, pc := s.pc + 2#16 } := rfl

/-- Settles O32: the masked word fixes the family, and the instruction is one write of I and the sequential
advance. -/
theorem loadIndexImmediate : Obligations.LoadIndexImmediate := by
  refine ⟨decodesAs_ldI, fun nnn s => ?_⟩
  rw [exec_ldI, State.advance_setI, zext16]

end Sys2Proof.Machine
end

section
/-! CLS, the one word of its row of the opcode map and its effect, and the statement O39. -/
namespace Sys2Proof.Machine

/-- `00E0` is CLS (R75). -/
theorem decode_00E0 : decode 0x00E0#16 = .ok .cls := by decide

/-- The row of CLS, whose mask `FFFF` leaves the one word `00E0`, decodes to CLS (R74, R181). -/
theorem decodesAs_cls : DecodesAs 0xFFFF#16 0x00E0#16 (fun _ => .cls) := by
  intro w hw
  have hword : w = 0x00E0#16 := BitVec.and_allOnes.symm.trans hw
  rw [hword, decode_00E0]

/-- CLS replaces the framebuffer by the blank one and advances, on every state (R181). -/
theorem exec_cls (s : State) : exec .cls s = .next (s.setFb Frame.blank).advance := rfl

/-- A replaced framebuffer followed by the sequential advance, as one record update. -/
theorem State.advance_setFb (s : State) (f : Frame) :
    (s.setFb f).advance = { s with fb := f, pc := s.pc + 2#16 } := rfl

/-- Settles O39: the mask fixes the whole word, and the instruction is one write of the blank framebuffer, whose
pixels are all off, and the sequential advance. -/
theorem clearScreen : Obligations.ClearScreen := by
  refine ⟨decodesAs_cls, fun s => ⟨(s.setFb Frame.blank).advance, exec_cls s, fun x y _ _ => ?_, ?_⟩⟩
  · rw [State.fb_advance, State.fb_setFb, Frame.pixel_blank]
  · rw [State.advance_setFb]

end Sys2Proof.Machine
end

section
/-! LD Vx, DT and LD DT, Vx, their rows of the opcode map read backwards and their effects, and the statement O43. -/
namespace Sys2Proof.Machine

/-- A row with mask `F0FF` fixes the family and the low byte. -/
theorem fields_of_and_F0FF {w : Word} {f : BitVec 4} {kk : Byte} (h : w &&& 0xF0FF#16 = packXkk f 0 kk) :
    fieldF w = f ∧ fieldKk w = kk := by
  have hpack : packXkk (fieldF w) 0 (fieldKk w) = packXkk f 0 kk := (and_F0FF w).symm.trans h
  exact ⟨by simpa using congrArg fieldF hpack, by simpa using congrArg fieldKk hpack⟩

/-- Family F goes to the decoder of the words with a sub-opcode in the low byte (R75). -/
theorem decode_of_familyF {w : Word} (hf : fieldF w = 0xF#4) : decode w = decodeMisc w := by
  simp [decode, hf]

/-- Sub-opcode 07 of family F is LD Vx, DT (R75). -/
theorem decodeMisc_of_fieldKk_07 {w : Word} (hkk : fieldKk w = 0x07#8) : decodeMisc w = .ok (.ldVxDt (fieldX w)) := by
  simp [decodeMisc, hkk]

/-- Sub-opcode 15 of family F is LD DT, Vx (R75). -/
theorem decodeMisc_of_fieldKk_15 {w : Word} (hkk : fieldKk w = 0x15#8) : decodeMisc w = .ok (.ldDtVx (fieldX w)) := by
  simp [decodeMisc, hkk]

/-- `FX07` decodes to LD Vx, DT (R74, R194). -/
theorem decodesAs_ldVxDt : DecodesAs 0xF0FF#16 0xF007#16 (fun w => .ldVxDt (wordX w)) := by
  intro w hw
  obtain ⟨hf, hkk⟩ : fieldF w = 0xF#4 ∧ fieldKk w = 0x07#8 := fields_of_and_F0FF hw
  rw [decode_of_familyF hf, decodeMisc_of_fieldKk_07 hkk, fieldX_eq_wordX]

/-- `FX15` decodes to LD DT, Vx (R74, R195). -/
theorem decodesAs_ldDtVx : DecodesAs 0xF0FF#16 0xF015#16 (fun w => .ldDtVx (wordX w)) := by
  intro w hw
  obtain ⟨hf, hkk⟩ : fieldF w = 0xF#4 ∧ fieldKk w = 0x15#8 := fields_of_and_F0FF hw
  rw [decode_of_familyF hf, decodeMisc_of_fieldKk_15 hkk, fieldX_eq_wordX]

/-- LD Vx, DT writes the delay timer to the register and advances, on every state (R194). -/
theorem exec_ldVxDt (x : Reg) (s : State) : exec (.ldVxDt x) s = .next (s.setReg x s.dt).advance := rfl

/-- LD DT, Vx writes the register to the delay timer and advances, on every state (R195). -/
theorem exec_ldDtVx (x : Reg) (s : State) : exec (.ldDtVx x) s = .next (s.setDt (s.reg x)).advance := rfl

/-- A write of the delay timer followed by the sequential advance, as one record update. -/
theorem State.advance_setDt (s : State) (b : Byte) : (s.setDt b).advance = { s with dt := b, pc := s.pc + 2#16 } := rfl

/-- Settles O43: the masked word fixes the family and the low byte, the first instruction is one register write and
the second one write of the delay timer, each with the sequential advance. -/
theorem delayTimerReadAndWrite : Obligations.DelayTimerReadAndWrite := by
  refine ⟨decodesAs_ldVxDt, decodesAs_ldDtVx, fun x s => ⟨?_, ?_⟩⟩
  · rw [exec_ldVxDt, State.advance_setReg]
  · rw [exec_ldDtVx, State.advance_setDt]

end Sys2Proof.Machine
end

section
/-! The tick of the timers, one timer's part as a number and the whole command's effect, and the statement O46. -/
namespace Sys2Proof.Machine

/-- One timer's part of a tick is subtraction that stops at zero (R221). -/
@[simp] theorem toNat_tickDown (t : Byte) : (tickDown t).toNat = t.toNat - 1 := by
  unfold tickDown
  split
  case isTrue hzero => simp [hzero]
  case isFalse hne =>
    have hone : 1#8 ≤ t := by bv_omega
    exact BitVec.toNat_sub_of_le hone

/-- The command completes on every state (R221). -/
theorem command_tickTimers (s : State) : command .tickTimers s = (s.tickTimers, .done) := rfl

/-- A tick writes the two timers only, as one record update (R221). -/
theorem State.tickTimers_eq (s : State) : s.tickTimers = { s with dt := tickDown s.dt, st := tickDown s.st } := rfl

/-- Settles O46: the command answers done with the ticked state, each of whose timers is its own part of the tick,
and a tick is one update of the two timers. -/
theorem tickDecrementsEachTimer : Obligations.TickDecrementsEachTimer := by
  intro s
  refine ⟨s.tickTimers, command_tickTimers s, ?_, ?_, ?_⟩
  · rw [State.dt_tickTimers, toNat_tickDown]
  · rw [State.st_tickTimers, toNat_tickDown]
  · rw [State.dt_tickTimers, State.st_tickTimers, State.tickTimers_eq]

end Sys2Proof.Machine
end

section
/-! The decoder and the encoder undo each other (R72, R74, R75), and the statement O16. -/
namespace Sys2Proof.Machine

/-! ### From an instruction to its word and back -/

/-- Decoding the word of an instruction gives it back: the fields of a packed word are the operands, and the fixed
fields lead the decoder to the instruction's own arm. -/
theorem decode_encode (i : Instr) : decode (encode i) = .ok i := by
  cases i with
  | cls | ret => decide
  | jp | call | ldI | jpV0 => simp [encode, decode]
  | seImm | sneImm | ldImm | addImm | rnd => simp [encode, decode]
  | seReg | sneReg | drw => simp [encode, decode]
  | ldReg | orReg | andReg | xorReg | addReg | sub | shr | subn | shl => simp [encode, decode, decodeArith]
  | skp | sknp => simp [encode, decode, decodeKey]
  | ldVxDt | ldVxK | ldDtVx | ldStVx | addI | ldF | ldB | ldMemVx | ldVxMem => simp [encode, decode, decodeMisc]

/-- Decoding the bytes of an instruction, in memory order, gives it back with the bytes that follow. -/
theorem decodeBytes_encodeBytes (i : Instr) (rest : List Byte) :
    decodeBytes (encodeBytes i ++ rest) = .ok (i, rest) := by
  simp [encodeBytes, decodeBytes, decode_encode]

/-! ### A word made again from the fields the decoder tested -/

theorem packNnn_of_fieldF {w : Word} {f : BitVec 4} (hf : (fieldF w).toNat = f.toNat) :
    packNnn f (fieldNnn w) = w := by
  rw [← BitVec.eq_of_toNat_eq hf, packNnn_fields]

theorem packXkk_of_fieldF {w : Word} {f : BitVec 4} (hf : (fieldF w).toNat = f.toNat) :
    packXkk f (fieldX w) (fieldKk w) = w := by
  rw [← BitVec.eq_of_toNat_eq hf, packXkk_fields]

theorem packXyn_of_fieldF {w : Word} {f : BitVec 4} (hf : (fieldF w).toNat = f.toNat) :
    packXyn f (fieldX w) (fieldY w) (fieldN w) = w := by
  rw [← BitVec.eq_of_toNat_eq hf, packXyn_fields]

theorem packXyn_of_fieldF_fieldN {w : Word} {f : BitVec 4} {n : Fin 16} (hf : (fieldF w).toNat = f.toNat)
    (hn : (fieldN w).val = n.val) : packXyn f (fieldX w) (fieldY w) n = w := by
  rw [← Fin.ext hn, packXyn_of_fieldF hf]

theorem packXkk_of_fieldF_fieldKk {w : Word} {f : BitVec 4} {kk : Byte} (hf : (fieldF w).toNat = f.toNat)
    (hkk : (fieldKk w).toNat = kk.toNat) : packXkk f (fieldX w) kk = w := by
  rw [← BitVec.eq_of_toNat_eq hkk, packXkk_of_fieldF hf]

/-! ### From a word to its instruction and back -/

theorem encode_of_decodeArith {w : Word} {i : Instr} (hf : (fieldF w).toNat = 0x8) (h : decodeArith w = .ok i) :
    encode i = w := by
  unfold decodeArith at h
  split at h <;> cases h <;> exact packXyn_of_fieldF_fieldN hf ‹_›

theorem encode_of_decodeKey {w : Word} {i : Instr} (hf : (fieldF w).toNat = 0xE) (h : decodeKey w = .ok i) :
    encode i = w := by
  unfold decodeKey at h
  split at h <;> cases h <;> exact packXkk_of_fieldF_fieldKk hf ‹_›

theorem encode_of_decodeMisc {w : Word} {i : Instr} (hf : (fieldF w).toNat = 0xF) (h : decodeMisc w = .ok i) :
    encode i = w := by
  unfold decodeMisc at h
  split at h <;> cases h <;> exact packXkk_of_fieldF_fieldKk hf ‹_›

/-- Encoding what a word decodes to gives the word back. The cases are the decoder's arms, one for each family, by
format: family 0, then `nnn`, `xkk`, `xy0`, `xyn`, the three families with a sub-opcode, and no family at all. -/
theorem encode_of_decode {w : Word} {i : Instr} (h : decode w = .ok i) : encode i = w := by
  unfold decode at h
  split at h
  case h_1 =>
    split at h
    case isTrue hword => cases h; exact hword.symm
    case isFalse => split at h <;> cases h; exact Eq.symm ‹_›
  case h_2 hf | h_3 hf | h_11 hf | h_12 hf => cases h; exact packNnn_of_fieldF hf
  case h_4 hf | h_5 hf | h_7 hf | h_8 hf | h_13 hf => cases h; exact packXkk_of_fieldF hf
  case h_6 hf | h_10 hf => split at h <;> cases h; exact packXyn_of_fieldF_fieldN hf ‹_›
  case h_14 hf => cases h; exact packXyn_of_fieldF hf
  case h_9 hf => exact encode_of_decodeArith hf h
  case h_15 hf => exact encode_of_decodeKey hf h
  case h_16 hf => exact encode_of_decodeMisc hf h
  case h_17 => cases h

/-- Settles O16: one direction goes over the instructions, the other over the decoder's arms. -/
theorem decodeAndEncodeAreInverse : Obligations.DecodeAndEncodeAreInverse :=
  ⟨fun i rest => ⟨decode_encode i, decodeBytes_encodeBytes i rest⟩, fun _ _ h => encode_of_decode h⟩

end Sys2Proof.Machine
end

section
/-! The opcode map of R74: what its rows decode to, the words no row accepts (R76), and that no word matches two
rows; the statements O11 to O15. -/
namespace Sys2Proof.Machine

/-! ### The rows decode to their instructions -/

/-- A row decodes as `mk` when every word it accepts is the encoding of what `mk` makes of it. -/
theorem decodesAs_of_encode {mask value : Word} {mk : Word → Instr}
    (h : ∀ w : Word, w &&& mask = value → encode (mk w) = w) : DecodesAs mask value mk := by
  intro w hw
  have hround := decode_encode (mk w)
  rwa [h w hw] at hround

/-- The decoder's count field is that of R14. -/
theorem fieldN_eq_wordN (w : Word) : fieldN w = wordN w := Fin.ext (fieldN_val w)

theorem packNnn_of_and_F000 {w : Word} {f : BitVec 4} (h : w &&& 0xF000#16 = packNnn f 0#12) :
    packNnn f (wordNnn w) = w := by
  rw [← fieldNnn_eq_wordNnn, ← fieldF_of_and_F000 h, packNnn_fields]

theorem packXkk_of_and_F000 {w : Word} {f : BitVec 4} (h : w &&& 0xF000#16 = packNnn f 0#12) :
    packXkk f (wordX w) (wordKk w) = w := by
  rw [← fieldX_eq_wordX, ← fieldKk_eq_wordKk, ← fieldF_of_and_F000 h, packXkk_fields]

theorem packXyn_of_and_F000 {w : Word} {f : BitVec 4} (h : w &&& 0xF000#16 = packNnn f 0#12) :
    packXyn f (wordX w) (wordY w) (wordN w) = w := by
  rw [← fieldX_eq_wordX, ← fieldY_eq_wordY, ← fieldN_eq_wordN, ← fieldF_of_and_F000 h, packXyn_fields]

theorem packXyn_of_and_F00F {w : Word} {f : BitVec 4} {n : Fin 16} (h : w &&& 0xF00F#16 = packXyn f 0 0 n) :
    packXyn f (wordX w) (wordY w) n = w := by
  obtain ⟨hf, hn⟩ := fields_of_and_F00F h
  rw [← fieldX_eq_wordX, ← fieldY_eq_wordY, ← hf, ← hn, packXyn_fields]

theorem packXkk_of_and_F0FF {w : Word} {f : BitVec 4} {kk : Byte} (h : w &&& 0xF0FF#16 = packXkk f 0 kk) :
    packXkk f (wordX w) kk = w := by
  obtain ⟨hf, hkk⟩ := fields_of_and_F0FF h
  rw [← fieldX_eq_wordX, ← hf, ← hkk, packXkk_fields]

/-- The row of RET, whose mask `FFFF` leaves the one word `00EE` (R74, R141). -/
theorem decodesAs_ret : DecodesAs 0xFFFF#16 0x00EE#16 (fun _ => .ret) :=
  decodesAs_of_encode fun _ hw => hw.symm.trans BitVec.and_allOnes

/-- Settles O11, by running the decoder on each word. -/
theorem sampleWordsDecode : Obligations.SampleWordsDecode := by
  refine ⟨?_, ?_, ?_, ?_, ?_, ?_, ?_, ?_⟩ <;> decide

/-- Settles O12: each word of a row is made again from its fields, by the format of its row. -/
theorem opcodeMapDecodesFamilies0To7 : Obligations.OpcodeMapDecodesFamilies0To7 :=
  ⟨decodesAs_cls, decodesAs_ret,
    decodesAs_of_encode fun _ h => packNnn_of_and_F000 h,
    decodesAs_of_encode fun _ h => packNnn_of_and_F000 h,
    decodesAs_seImm, decodesAs_sneImm,
    decodesAs_of_encode fun _ h => packXyn_of_and_F00F h,
    decodesAs_ldImm,
    decodesAs_of_encode fun _ h => packXkk_of_and_F000 h⟩

/-- Settles O13: each word of a row is made again from its fields, by the format of its row. -/
theorem opcodeMapDecodesFamilies8ToF : Obligations.OpcodeMapDecodesFamilies8ToF :=
  ⟨decodesAs_ldReg,
    decodesAs_of_encode fun _ h => packXyn_of_and_F00F h,
    decodesAs_of_encode fun _ h => packXyn_of_and_F00F h,
    decodesAs_of_encode fun _ h => packXyn_of_and_F00F h,
    decodesAs_of_encode fun _ h => packXyn_of_and_F00F h,
    decodesAs_of_encode fun _ h => packXyn_of_and_F00F h,
    decodesAs_of_encode fun _ h => packXyn_of_and_F00F h,
    decodesAs_of_encode fun _ h => packXyn_of_and_F00F h,
    decodesAs_of_encode fun _ h => packXyn_of_and_F00F h,
    decodesAs_of_encode fun _ h => packXyn_of_and_F00F h,
    decodesAs_ldI,
    decodesAs_of_encode fun _ h => packNnn_of_and_F000 h,
    decodesAs_of_encode fun _ h => packXkk_of_and_F000 h,
    decodesAs_of_encode fun _ h => packXyn_of_and_F000 h,
    decodesAs_of_encode fun _ h => packXkk_of_and_F0FF h,
    decodesAs_of_encode fun _ h => packXkk_of_and_F0FF h,
    decodesAs_ldVxDt,
    decodesAs_of_encode fun _ h => packXkk_of_and_F0FF h,
    decodesAs_ldDtVx,
    decodesAs_of_encode fun _ h => packXkk_of_and_F0FF h,
    decodesAs_of_encode fun _ h => packXkk_of_and_F0FF h,
    decodesAs_of_encode fun _ h => packXkk_of_and_F0FF h,
    decodesAs_of_encode fun _ h => packXkk_of_and_F0FF h,
    decodesAs_of_encode fun _ h => packXkk_of_and_F0FF h,
    decodesAs_of_encode fun _ h => packXkk_of_and_F0FF h⟩

/-! ### The illegal words (R76) -/

theorem decodeArith_reject_iff (w : Word) :
    decodeArith w = .error (.unknownInstruction w) ↔ w.toNat % 0x10 ∈ [0x8, 0x9, 0xA, 0xB, 0xC, 0xD, 0xF] := by
  have hlt : w.toNat % 0x10 < 0x10 := Nat.mod_lt _ (by decide)
  rw [decodeArith, fieldN_val]
  generalize w.toNat % 0x10 = n at hlt ⊢
  interval_cases n <;> simp

theorem decodeKey_reject_iff (w : Word) :
    decodeKey w = .error (.unknownInstruction w) ↔ w.toNat % 0x100 ∉ [0x9E, 0xA1] := by
  rw [decodeKey, fieldKk_toNat]
  split <;> simp_all

theorem decodeMisc_reject_iff (w : Word) :
    decodeMisc w = .error (.unknownInstruction w) ↔
      w.toNat % 0x100 ∉ [0x07, 0x0A, 0x15, 0x18, 0x1E, 0x29, 0x33, 0x55, 0x65] := by
  rw [decodeMisc, fieldKk_toNat]
  split <;> simp_all

/-- Settles O14, over the decoder's arms: family 0, the families with a zero nibble, the three families with a
sub-opcode, no family at all (which no 16-bit word has), and the families that accept every word. -/
theorem illegalWordsAreTheSixPatterns : Obligations.IllegalWordsAreTheSixPatterns := by
  intro w
  have hlt : w.toNat / 0x1000 < 0x10 := by have := w.isLt; omega
  have hcls : w = 0x00E0#16 ↔ w.toNat = 0x00E0 := BitVec.toNat_inj.symm
  have hret : w = 0x00EE#16 ↔ w.toNat = 0x00EE := BitVec.toNat_inj.symm
  rw [decode, fieldF_toNat]
  split
  case h_1 hf =>
    simp only [hcls, hret]
    split
    case isTrue hw => simp [hw]
    case isFalse hw => split <;> simp [*]
  case h_6 hf | h_10 hf =>
    rw [fieldN_val]
    split <;> simp [*]
  case h_9 hf => simp [hf, decodeArith_reject_iff]
  case h_15 hf => simp [hf, decodeKey_reject_iff]
  case h_16 hf => simp [hf, decodeMisc_reject_iff]
  case h_17 =>
    generalize w.toNat / 0x1000 = f at *
    interval_cases f <;> contradiction
  case h_2 hf | h_3 hf | h_4 hf | h_5 hf | h_7 hf | h_8 hf | h_11 hf | h_12 hf | h_13 hf | h_14 hf => simp [hf]

/-! ### No word matches two rows -/

/-- Rows that differ in a bit both fix accept no word together. -/
theorem not_accepts_of_disjoint {r q : OpcodeRow} {w : Word} (h : r.disjoint q = true) (hr : r.accepts w = true)
    (hq : q.accepts w = true) : False := by
  have hr' : w &&& r.mask = r.value := by simpa [OpcodeRow.accepts] using hr
  have hq' : w &&& q.mask = q.value := by simpa [OpcodeRow.accepts] using hq
  have hzero : (r.value ^^^ q.value) &&& r.mask &&& q.mask = 0#16 := by
    rw [← hr', ← hq']
    ext j hj
    simp only [BitVec.getElem_and, BitVec.getElem_xor, BitVec.getElem_zero]
    cases w[j] <;> cases r.mask[j] <;> cases q.mask[j] <;> rfl
  simp [OpcodeRow.disjoint, hzero] at h

theorem disjoint_comm (r q : OpcodeRow) : r.disjoint q = q.disjoint r := by
  simp only [OpcodeRow.disjoint, BitVec.xor_comm r.value, BitVec.and_assoc, BitVec.and_comm r.mask]

theorem opcodeTable_pairwise_disjoint : opcodeTable.Pairwise (fun r q => r.disjoint q = true) := by decide

theorem row_unique {r q : OpcodeRow} {w : Word} (hr : r ∈ opcodeTable) (hq : q ∈ opcodeTable)
    (hrw : r.accepts w = true) (hqw : q.accepts w = true) : r = q := by
  by_contra hne
  have hsymm : Std.Symm fun r q : OpcodeRow => r.disjoint q = true :=
    ⟨fun r q h => (disjoint_comm q r).trans h⟩
  exact not_accepts_of_disjoint (opcodeTable_pairwise_disjoint.forall hr hq hne) hrw hqw

/-! ### The map accepts exactly the decoder's words -/

section
open Laws.EncodesToLegalWord

/-- The word of every instruction is accepted by the row of its own mnemonic. -/
theorem wordWellFormed_encode (i : Instr) : wordWellFormed (encode i) = true := by
  cases i with
  | cls => exact cls
  | ret => exact ret
  | jp nnn => exact jp nnn
  | call nnn => exact call nnn
  | seImm x kk => exact seImm x kk
  | sneImm x kk => exact sneImm x kk
  | seReg x y => exact seReg x y
  | ldImm x kk => exact ldImm x kk
  | addImm x kk => exact addImm x kk
  | ldReg x y => exact ldReg x y
  | orReg x y => exact orReg x y
  | andReg x y => exact andReg x y
  | xorReg x y => exact xorReg x y
  | addReg x y => exact addReg x y
  | sub x y => exact sub x y
  | shr x y => exact shr x y
  | subn x y => exact subn x y
  | shl x y => exact shl x y
  | sneReg x y => exact sneReg x y
  | ldI nnn => exact ldI nnn
  | jpV0 nnn => exact jpV0 nnn
  | rnd x kk => exact rnd x kk
  | drw x y n => exact drw x y n
  | skp x => exact skp x
  | sknp x => exact sknp x
  | ldVxDt x => exact ldVxDt x
  | ldVxK x => exact ldVxK x
  | ldDtVx x => exact ldDtVx x
  | ldStVx x => exact ldStVx x
  | addI x => exact addI x
  | ldF x => exact ldF x
  | ldB x => exact ldB x
  | ldMemVx x => exact ldMemVx x
  | ldVxMem x => exact ldVxMem x

end

/-- Every row of the map decodes as some instruction. -/
theorem decodesAs_of_row : ∀ r ∈ opcodeTable, ∃ mk, DecodesAs r.mask r.value mk := by
  obtain ⟨cls, ret, jp, call, seImm, sneImm, seReg, ldImm, addImm⟩ := opcodeMapDecodesFamilies0To7
  obtain ⟨ldReg, orReg, andReg, xorReg, addReg, sub, shr, subn, shl, sneReg, ldI, jpV0, rnd, drw, skp, sknp, ldVxDt,
    ldVxK, ldDtVx, ldStVx, addI, ldF, ldB, ldMemVx, ldVxMem⟩ := opcodeMapDecodesFamilies8ToF
  simp only [opcodeTable, opcodeRowsLow, opcodeRowsHigh, List.cons_append, List.nil_append, List.forall_mem_cons]
  exact ⟨⟨_, cls⟩, ⟨_, ret⟩, ⟨_, jp⟩, ⟨_, call⟩, ⟨_, seImm⟩, ⟨_, sneImm⟩, ⟨_, seReg⟩, ⟨_, ldImm⟩, ⟨_, addImm⟩,
    ⟨_, ldReg⟩, ⟨_, orReg⟩, ⟨_, andReg⟩, ⟨_, xorReg⟩, ⟨_, addReg⟩, ⟨_, sub⟩, ⟨_, shr⟩, ⟨_, subn⟩, ⟨_, shl⟩,
    ⟨_, sneReg⟩, ⟨_, ldI⟩, ⟨_, jpV0⟩, ⟨_, rnd⟩, ⟨_, drw⟩, ⟨_, skp⟩, ⟨_, sknp⟩, ⟨_, ldVxDt⟩, ⟨_, ldVxK⟩, ⟨_, ldDtVx⟩,
    ⟨_, ldStVx⟩, ⟨_, addI⟩, ⟨_, ldF⟩, ⟨_, ldB⟩, ⟨_, ldMemVx⟩, ⟨_, ldVxMem⟩, fun _ h => absurd h List.not_mem_nil⟩

theorem wordWellFormed_iff_decodes (w : Word) : wordWellFormed w = true ↔ ∃ i, decode w = .ok i := by
  constructor
  · intro h
    obtain ⟨r, hr, hrw⟩ := List.any_eq_true.1 h
    obtain ⟨mk, hmk⟩ := decodesAs_of_row r hr
    exact ⟨mk w, hmk w (by simpa [OpcodeRow.accepts] using hrw)⟩
  · rintro ⟨i, hi⟩
    rw [← encode_of_decode hi]
    exact wordWellFormed_encode i

/-- Settles O15: rows are pairwise disjoint; a row's words decode by O12 and O13, and a decoded word is the encoding
of its instruction, which a row accepts. -/
theorem opcodeMapIsUnambiguousAndTheDecoders : Obligations.OpcodeMapIsUnambiguousAndTheDecoders :=
  ⟨fun _ _ _ => row_unique, wordWellFormed_iff_decodes⟩

end Sys2Proof.Machine
end

section
/-! What the shared operations and the instructions with a condition answer: the inversion lemmas the statements
about every instruction cite. -/
namespace Sys2Proof.Machine

/-! ### The shared operations -/

/-- Everything a push can answer as a next state: there was room. -/
theorem pushThen_next {addr : Word} {rest : State → Result} {s t : State} :
    pushThen addr rest s = .next t ↔ ∃ h : s.sp.toNat < 16,
      rest { s with stack := s.stack.set s.sp.toNat addr h, sp := s.sp + 1#8 } = .next t := by
  unfold pushThen
  split
  case isTrue hroom => simp [hroom]
  case isFalse hfull => split <;> simp [hfull]

/-- Everything a push can raise. -/
theorem pushThen_fault {addr : Word} {rest : State → Result} {s : State} {e : Fault}
    (he : pushThen addr rest s = .fault e) :
    (∃ h : s.sp.toNat < 16, rest { s with stack := s.stack.set s.sp.toNat addr h, sp := s.sp + 1#8 } = .fault e) ∨
      (s.sp.toNat = 16 ∧ e = .stackOverflow) ∨ (16 < s.sp.toNat ∧ e = .spOutOfRange s.sp) := by
  rcases Nat.lt_trichotomy s.sp.toNat 16 with hroom | hfull | hill
  · rw [pushThen_room hroom] at he
    exact Or.inl ⟨hroom, he⟩
  · rw [pushThen_full hfull] at he
    exact Or.inr (Or.inl ⟨hfull, (Host.Outcome.fault.inj he).symm⟩)
  · rw [pushThen_illegal hill] at he
    exact Or.inr (Or.inr ⟨hill, (Host.Outcome.fault.inj he).symm⟩)

theorem pushThen_not_refused {addr : Word} {rest : State → Result} {s : State} {r : Refusal}
    (hrest : ∀ u, rest u ≠ .refused r) : pushThen addr rest s ≠ .refused r := by
  unfold pushThen
  split
  · exact hrest _
  · split <;> simp

/-- Everything a pop can answer as a next state: there was an address. -/
theorem popThen_next {rest : Word → State → Result} {s t : State} :
    popThen rest s = .next t ↔ ∃ (_ : s.sp.toNat ≠ 0) (_ : s.sp.toNat ≤ 16),
      rest (s.stack[s.sp.toNat - 1]'(by omega)) { s with sp := s.sp - 1#8 } = .next t := by
  unfold popThen
  split
  case isTrue hempty => simp [hempty]
  case isFalse hsome => split <;> simp [*]

/-- Everything a pop can raise. -/
theorem popThen_fault {rest : Word → State → Result} {s : State} {e : Fault} (he : popThen rest s = .fault e) :
    (s.sp.toNat = 0 ∧ e = .stackUnderflow) ∨
      (∃ (_ : s.sp.toNat ≠ 0) (_ : s.sp.toNat ≤ 16),
        rest (s.stack[s.sp.toNat - 1]'(by omega)) { s with sp := s.sp - 1#8 } = .fault e) ∨
      (16 < s.sp.toNat ∧ e = .spOutOfRange s.sp) := by
  by_cases hempty : s.sp.toNat = 0
  · rw [popThen_empty hempty] at he
    exact Or.inl ⟨hempty, (Host.Outcome.fault.inj he).symm⟩
  by_cases hlegal : s.sp.toNat ≤ 16
  · rw [popThen_some hempty hlegal] at he
    exact Or.inr (Or.inl ⟨hempty, hlegal, he⟩)
  · rw [popThen_illegal (Nat.lt_of_not_le hlegal)] at he
    exact Or.inr (Or.inr ⟨Nat.lt_of_not_le hlegal, (Host.Outcome.fault.inj he).symm⟩)

theorem popThen_not_refused {rest : Word → State → Result} {s : State} {r : Refusal}
    (hrest : ∀ w u, rest w u ≠ .refused r) : popThen rest s ≠ .refused r := by
  unfold popThen
  split
  · simp
  · split
    · exact hrest _ _
    · simp

/-- Everything an access can raise before an effect that completes: the lowest address above 0xFFF (R54). -/
theorem accessThen_fault {a n : Nat} {u : State} {e : Fault} (he : accessThen a n (.next u) = .fault e) :
    e = .addressOutOfBounds (max a 4096) := by
  unfold accessThen at he
  split at he
  · cases he
  · exact ((raise_eq_fault _ _).1 he).symm

theorem accessThen_not_refused {a n : Nat} {u : State} {r : Refusal} : accessThen a n (.next u) ≠ .refused r := by
  unfold accessThen
  split <;> simp

/-! ### The instructions with a condition -/

/-- JP nnn is a checked jump (R142). -/
theorem exec_jp (nnn : Addr12) (s : State) : exec (.jp nnn) s = jumpTo nnn.toNat s := rfl

/-- CALL is a push and a checked jump (R143). -/
theorem exec_call (nnn : Addr12) (s : State) :
    exec (.call nnn) s = pushThen s.returnAddress (jumpTo nnn.toNat) s := rfl

/-- RET is a pop and a checked jump (R141). -/
theorem exec_ret (s : State) : exec .ret s = popThen (fun t => jumpTo t.toNat) s := rfl

/-- CALL completes exactly with room and a legal target (R143). -/
theorem exec_call_next {nnn : Addr12} {s t : State} :
    exec (.call nnn) s = .next t ↔ ∃ h : s.sp.toNat < 16, nnn.toNat ≤ 0xFFE ∧ nnn.toNat % 2 = 0 ∧
      t = { s with stack := s.stack.set s.sp.toNat s.returnAddress h, sp := s.sp + 1#8,
                   pc := BitVec.ofNat 16 nnn.toNat } := by
  rw [exec_call, pushThen_next]
  simp only [jumpTo_next]
  rfl

/-- RET completes exactly with an address on the stack that is a legal target (R141). -/
theorem exec_ret_next {s t : State} :
    exec .ret s = .next t ↔ ∃ (_ : s.sp.toNat ≠ 0) (_ : s.sp.toNat ≤ 16),
      (s.stack[s.sp.toNat - 1]'(by omega)).toNat ≤ 0xFFE ∧ (s.stack[s.sp.toNat - 1]'(by omega)).toNat % 2 = 0 ∧
      t = { s with sp := s.sp - 1#8, pc := s.stack[s.sp.toNat - 1]'(by omega) } := by
  rw [exec_ret, popThen_next]
  simp only [jumpTo_next, BitVec.ofNat_toNat, BitVec.setWidth_eq]
  rfl

/-- DRW completes exactly when its sprite lies inside memory (R182, R54). -/
theorem exec_drw_next {x y : Reg} {n : Fin 16} {s t : State} :
    exec (.drw x y n) s = .next t ↔
      (n.val = 0 ∨ s.dataAddress + n.val ≤ 4096) ∧ t = (s.draw x y n).advance := by
  rw [exec, execDrw, accessThen_next, Host.Outcome.next.injEq, eq_comm (b := t)]

/-- LD B, Vx completes exactly when the three digits fit (R164, R54). -/
theorem exec_ldB_next {x : Reg} {s t : State} :
    exec (.ldB x) s = .next t ↔ s.dataAddress + 3 ≤ 4096 ∧
      t = (s.setMem (s.mem.store s.dataAddress (decimalDigits (s.reg x)))).advance := by
  rw [exec, execLdB, accessThen_next, Host.Outcome.next.injEq, eq_comm (b := t)]
  simp

/-- LD [I], Vx completes exactly when the registers fit (R165, R54). -/
theorem exec_ldMemVx_next {x : Reg} {s t : State} :
    exec (.ldMemVx x) s = .next t ↔ s.dataAddress + (x.val + 1) ≤ 4096 ∧
      t = (s.setMem (s.mem.store s.dataAddress (s.regsUpTo x))).advance := by
  rw [exec, execLdMemVx, accessThen_next, Host.Outcome.next.injEq, eq_comm (b := t)]
  simp

/-- LD Vx, [I] completes exactly when the bytes lie inside memory (R166, R54). -/
theorem exec_ldVxMem_next {x : Reg} {s t : State} :
    exec (.ldVxMem x) s = .next t ↔ s.dataAddress + (x.val + 1) ≤ 4096 ∧
      t = (s.setRegs (s.mem.load s.dataAddress (x.val + 1))).advance := by
  rw [exec, execLdVxMem, accessThen_next, Host.Outcome.next.injEq, eq_comm (b := t)]
  simp

/-- LD Vx, K takes the least pressed key, or leaves the state as it is (R193). -/
theorem exec_ldVxK_next {x : Reg} {s t : State} :
    exec (.ldVxK x) s = .next t ↔
      (∃ k, s.firstPressed = some k ∧ t = ((s.setReg x (BitVec.ofNat 8 k.val)).setKey k false).advance) ∨
      (s.firstPressed = none ∧ t = s) := by
  rw [exec, execLdVxK]
  cases s.firstPressed <;> simp [eq_comm]

end Sys2Proof.Machine
end

section
/-! How every instruction moves PC, who writes each part of the state, and who writes VF: the statements O57, O58
and O59. Each goes over the instructions; the jumps, the accesses, CALL, RET and FX0A complete under a condition and
go through their inversion lemmas, the others complete on every state. -/
namespace Sys2Proof.Machine

/-! ### PC -/

/-- A checked target fits PC. -/
theorem pc_setPc_legal (s : State) {a : Nat} (hle : a ≤ 0xFFE) (heven : a % 2 = 0) :
    (s.setPc (BitVec.ofNat 16 a)).pc.toNat ≤ 0xFFE ∧ (s.setPc (BitVec.ofNat 16 a)).pc.toNat % 2 = 0 := by
  have hval : (BitVec.ofNat 16 a).toNat = a := by
    rw [BitVec.toNat_ofNat]
    omega
  rw [State.pc_setPc, hval]
  exact ⟨hle, heven⟩

/-- The sequential advance from a PC that can be fetched does not wrap (R95). -/
theorem toNat_pc_advance {s u : State} (hu : u.pc = s.pc) (hpc : s.pc.toNat ≤ 0xFFE) :
    u.advance.pc.toNat = s.pc.toNat + 2 := by
  rw [State.pc_advance, hu]
  bv_omega

/-- Neither does a skip (R95, R145). -/
theorem toNat_pc_skipIf {s : State} (c : Bool) (hpc : s.pc.toNat ≤ 0xFFE) :
    (s.skipIf c).pc.toNat = s.pc.toNat + 2 ∨ (s.skipIf c).pc.toNat = s.pc.toNat + 4 := by
  rw [State.pc_skipIf]
  cases c with
  | false => left; rw [if_neg Bool.false_ne_true]; bv_omega
  | true => right; rw [if_pos rfl]; bv_omega

/-- Settles O57. -/
theorem pcAdvancesInFourWays : Obligations.PcAdvancesInFourWays := by
  intro i s t hpc h
  cases i with
  | jp | jpV0 =>
    obtain ⟨hle, heven, rfl⟩ := jumpTo_next.1 h
    exact pc_setPc_legal s hle heven
  | call nnn =>
    obtain ⟨_, hle, heven, rfl⟩ := exec_call_next.1 h
    exact pc_setPc_legal s hle heven
  | ret =>
    obtain ⟨_, _, hle, heven, rfl⟩ := exec_ret_next.1 h
    exact ⟨hle, heven⟩
  | seImm | sneImm | seReg | sneReg | skp | sknp =>
    obtain rfl := Host.Outcome.next.inj h
    exact toNat_pc_skipIf _ hpc
  | ldVxK x =>
    obtain ⟨k, hk, rfl⟩ | ⟨hnone, rfl⟩ := exec_ldVxK_next.1 h
    · have hpressed : ∃ k : KeyIndex, s.pressed k = true := ⟨k, by simpa using List.find?_some hk⟩
      simp only [if_pos hpressed]
      exact toNat_pc_advance rfl hpc
    · have hnot : ¬ ∃ k : KeyIndex, t.pressed k = true := by
        simpa using t.firstPressed_eq_none_iff.1 hnone
      simp only [if_neg hnot]
  | drw | ldB | ldMemVx | ldVxMem =>
    obtain ⟨-, hnext⟩ := accessThen_next.1 h
    obtain rfl := Host.Outcome.next.inj hnext
    exact toNat_pc_advance rfl hpc
  | _ =>
    obtain rfl := Host.Outcome.next.inj h
    exact toNat_pc_advance rfl hpc

/-! ### The other parts of the state -/

/-- Settles O58: the next state is written out, and each part that is not as before names its instruction. -/
theorem eachPartOfTheStateHasItsWriters : Obligations.EachPartOfTheStateHasItsWriters := by
  intro i s t h
  cases i with
  | jp | jpV0 =>
    obtain ⟨-, -, rfl⟩ := jumpTo_next.1 h
    simp
  | call nnn =>
    obtain ⟨_, -, -, rfl⟩ := exec_call_next.1 h
    simp
  | ret =>
    obtain ⟨_, _, -, -, rfl⟩ := exec_ret_next.1 h
    simp
  | ldVxK x =>
    obtain ⟨k, -, rfl⟩ | ⟨-, rfl⟩ := exec_ldVxK_next.1 h <;> simp
  | drw | ldB | ldMemVx | ldVxMem =>
    obtain ⟨-, hnext⟩ := accessThen_next.1 h
    obtain rfl := Host.Outcome.next.inj hnext
    simp
  | _ =>
    obtain rfl := Host.Outcome.next.inj h
    simp

/-! ### VF -/

/-- A register that is not as before a write is the one written. -/
theorem eq_of_reg_setReg_ne {s : State} {x r : Reg} {b : Byte} (h : (s.setReg x b).reg r ≠ s.reg r) : x = r := by
  by_contra hne
  exact h (by rw [State.reg_setReg, if_neg (Ne.symm hne)])

/-- `V[r]` after `FX65` loaded V0 to Vx (R166). -/
theorem State.reg_setRegs_load (s : State) (a : Nat) (x r : Reg) :
    (s.setRegs (s.mem.load a (x.val + 1))).reg r = if r ≤ x then s.mem.read (a + r.val) else s.reg r := by
  rw [State.reg_setRegs]
  split
  case isTrue hr =>
    have hval : r.val ≤ x.val := hr
    rw [Memory.load_getElem?_of_lt _ _ (by omega), Option.getD_some]
  case isFalse hr =>
    have hval : x.val < r.val := Fin.not_le.1 hr
    rw [List.getElem?_eq_none (by rw [Memory.load_length]; omega), Option.getD_none]

/-- Only a load of all the registers reaches VF. -/
theorem eq_vf_of_reg_setRegs_load_ne {s : State} {a : Nat} {x : Reg}
    (h : (s.setRegs (s.mem.load a (x.val + 1))).reg 0xF ≠ s.reg 0xF) : x = 0xF := by
  by_contra hne
  have hlt : x < 0xF := lt_of_le_of_ne (Fin.le_last x) hne
  exact h (by rw [State.reg_setRegs_load, if_neg (Fin.not_le.2 hlt)])

/-- Settles O59: the instructions with a flag are in the list, the others that write a register name VF when they
reach it, and the rest write no register. -/
theorem vfIsWrittenOnlyAsFlagOrDestination : Obligations.VfIsWrittenOnlyAsFlagOrDestination := by
  intro i s t h hvf
  cases i with
  | addReg | sub | shr | subn | shl | drw => simp
  | ldImm | addImm | ldReg | orReg | andReg | xorReg | ldVxDt | rnd =>
    obtain rfl := Host.Outcome.next.inj h
    obtain rfl := eq_of_reg_setReg_ne hvf
    simp
  | ldVxK x =>
    obtain ⟨k, -, rfl⟩ | ⟨-, rfl⟩ := exec_ldVxK_next.1 h
    · obtain rfl := eq_of_reg_setReg_ne hvf
      simp
    · exact absurd rfl hvf
  | ldVxMem x =>
    obtain ⟨-, rfl⟩ := exec_ldVxMem_next.1 h
    rw [State.reg_advance] at hvf
    obtain rfl := eq_vf_of_reg_setRegs_load_ne hvf
    simp
  | jp | jpV0 =>
    obtain ⟨-, -, rfl⟩ := jumpTo_next.1 h
    exact absurd rfl hvf
  | call nnn =>
    obtain ⟨_, -, -, rfl⟩ := exec_call_next.1 h
    exact absurd rfl hvf
  | ret =>
    obtain ⟨_, _, -, -, rfl⟩ := exec_ret_next.1 h
    exact absurd rfl hvf
  | ldB | ldMemVx =>
    obtain ⟨-, hnext⟩ := accessThen_next.1 h
    obtain rfl := Host.Outcome.next.inj hnext
    exact absurd rfl hvf
  | _ =>
    obtain rfl := Host.Outcome.next.inj h
    exact absurd rfl hvf

end Sys2Proof.Machine
end

section
/-! The fetch, one step and the `step` command: the statements O4, O5, O8, O9 and O10. -/
namespace Sys2Proof.Machine

/-! ### Fetch -/

/-- PC at the last byte of memory: the second byte is the one out of bounds (R92). -/
theorem fetch_of_pc_last {s : State} (h : s.pc.toNat = 0xFFF) : fetch s = .error (.addressOutOfBounds 0x1000) := by
  simp [fetch, h, memRead_inside, memRead_outside]

/-- An odd PC inside memory (R92). -/
theorem fetch_of_pc_odd {s : State} (hle : s.pc.toNat ≤ 0xFFE) (hodd : s.pc.toNat % 2 = 1) :
    fetch s = .error (.misalignedPc s.pc.toNat) := by
  have hhi := memRead_inside s.mem (show s.pc.toNat ≤ 0xFFF by omega)
  have hlo := memRead_inside s.mem (show s.pc.toNat + 1 ≤ 0xFFF by omega)
  simp [fetch, hhi, hlo, hodd]

/-- Everything a fetch can raise (R92). -/
theorem fetch_error_kind {s : State} {e : Fault} (h : fetch s = .error e) :
    (∃ a, e = .addressOutOfBounds a) ∨ ∃ a, e = .misalignedPc a := by
  rcases Nat.lt_or_ge 0xFFF s.pc.toNat with habove | hle
  · exact Or.inl ⟨_, Except.error.inj (h.symm.trans (fetch_of_pc_above habove))⟩
  rcases Nat.lt_or_eq_of_le hle with hlt | hlast
  · rcases Nat.mod_two_eq_zero_or_one s.pc.toNat with heven | hodd
    · exact nomatch h.symm.trans (fetch_of_fetches ⟨Nat.le_of_lt_succ hlt, heven, rfl⟩)
    · exact Or.inr ⟨_, Except.error.inj (h.symm.trans (fetch_of_pc_odd (Nat.le_of_lt_succ hlt) hodd))⟩
  · exact Or.inl ⟨_, Except.error.inj (h.symm.trans (fetch_of_pc_last hlast))⟩

/-- What decodes was fetched, so that PC is inside memory. -/
theorem pc_le_of_fetchDecode {s : State} {i : Instr} (h : fetchDecode s = .ok i) : s.pc.toNat ≤ 0xFFE := by
  cases hf : fetch s with
  | error e => exact nomatch (fetchDecode_of_fetch_error hf).symm.trans h
  | ok ins => exact (fetches_of_fetch hf).1

/-- Settles O4: one law of the fetch for each range of PC. -/
theorem fetchReadsTwoBytesOrFaultsInOrder : Obligations.FetchReadsTwoBytesOrFaultsInOrder := by
  intro s
  refine ⟨step_of_pc_above, fun hlast => ?_, fun hle hodd => ?_, fun hle heven => ?_⟩
  · exact step_of_fetchDecode_error (fetchDecode_of_fetch_error (fetch_of_pc_last hlast))
  · exact step_of_fetchDecode_error (fetchDecode_of_fetch_error (fetch_of_pc_odd hle hodd))
  · exact fetch_of_fetches ⟨hle, heven, rfl⟩

/-! ### Step -/

/-- A step from a decoded instruction is exec of it (R91). -/
theorem step_of_fetchDecode {s : State} {i : Instr} (h : fetchDecode s = .ok i) : step s = exec i s := by
  simp [step, h]

/-- A step from a fetched word that decodes is exec of its instruction (R91). -/
theorem step_of_decode {s : State} {ins : Word} {i : Instr} (hf : s.Fetches ins) (hd : decode ins = .ok i) :
    step s = exec i s :=
  step_of_fetchDecode (fetchDecode_of_decode hf hd)

/-- Settles O5. -/
theorem stepRunsTheDecodedInstruction : Obligations.StepRunsTheDecodedInstruction :=
  fun _ _ _ => step_of_decode

/-- A step that answers a next state executed an instruction from a PC inside memory. -/
theorem exec_of_step_next {s t : State} (h : step s = .next t) : ∃ i, s.pc.toNat ≤ 0xFFE ∧ exec i s = .next t := by
  obtain ⟨ins, i, ⟨hle, -, -⟩, -, hstep⟩ | ⟨ins, r, -, -, hfault⟩ | ⟨e, -, hfault⟩ := step_cases s
  · exact ⟨i, hle, hstep.symm.trans h⟩
  · exact nomatch hfault.symm.trans h
  · exact nomatch hfault.symm.trans h

/-! ### The random byte -/

/-- The command's execution is the step's for every instruction but CXKK (R91). -/
theorem rnd_or_execWith_eq (rand8 : Byte) (i : Instr) (s : State) :
    (∃ x kk, i = .rnd x kk) ∨ execWith rand8 i s = exec i s := by
  cases i with
  | rnd x kk => exact Or.inl ⟨x, kk, rfl⟩
  | _ => exact Or.inr rfl

/-- The random byte decides no error: CXKK raises none. -/
theorem execWith_fault_iff (rand8 : Byte) (i : Instr) (s : State) (e : Fault) :
    execWith rand8 i s = .fault e ↔ exec i s = .fault e := by
  obtain ⟨x, kk, rfl⟩ | hsame := rnd_or_execWith_eq rand8 i s
  · constructor <;> exact nofun
  · rw [hsame]

/-- An instruction that raises is answered with its error and the state as it was (R97). -/
theorem stepCommand_of_fault {rand8 : Byte} {s : State} {i : Instr} {e : Fault} (hi : fetchDecode s = .ok i)
    (he : execWith rand8 i s = .fault e) : stepCommand rand8 s = (s, .error e) := by
  simp [stepCommand, hi, he]

/-- An instruction without a meaning is answered with the state as it was. -/
theorem stepCommand_of_refused {rand8 : Byte} {s : State} {i : Instr} {r : Refusal} (hi : fetchDecode s = .ok i)
    (hr : execWith rand8 i s = .refused r) : stepCommand rand8 s = (s, .refused r) := by
  simp [stepCommand, hi, hr]

/-- The command answers an engine error exactly when the step raises it, with the state as it was (R97). -/
theorem stepCommand_error_iff {rand8 : Byte} {s t : State} {e : Fault} :
    stepCommand rand8 s = (t, .error e) ↔ t = s ∧ step s = .fault e := by
  cases hi : fetchDecode s with
  | error e' =>
    rw [stepCommand_of_fetchDecode_error rand8 hi, step_of_fetchDecode_error hi]
    simp [eq_comm]
  | ok i =>
    rw [step_of_fetchDecode hi, ← execWith_fault_iff rand8]
    cases hexec : execWith rand8 i s with
    | next u => rw [stepCommand_of_next hi hexec]; split <;> simp
    | fault e' => rw [stepCommand_of_fault hi hexec]; simp [eq_comm]
    | refused r => rw [stepCommand_of_refused hi hexec]; simp

/-- Settles O8: the error is the step's own, which no random byte decides. -/
theorem errorsChangeNothingAndRecur : Obligations.ErrorsChangeNothingAndRecur := by
  intro s t e rand8 h
  obtain ⟨rfl, hfault⟩ := stepCommand_error_iff.1 h
  exact ⟨rfl, hfault, fun rand8' => stepCommand_error_iff.2 ⟨rfl, hfault⟩⟩

/-- An instruction other than CXKK neither reads nor writes the counter of draws. -/
theorem exec_randDraws {i : Instr} (hi : ∀ x kk, i ≠ .rnd x kk) {s t : State} (d : Nat) (h : exec i s = .next t) :
    exec i { s with randDraws := d } = .next { t with randDraws := d } := by
  cases i with
  | rnd x kk => exact absurd rfl (hi x kk)
  | jp | jpV0 =>
    obtain ⟨hle, heven, rfl⟩ := jumpTo_next.1 h
    exact jumpTo_next.2 ⟨hle, heven, rfl⟩
  | call nnn =>
    obtain ⟨hroom, hle, heven, rfl⟩ := exec_call_next.1 h
    exact exec_call_next.2 ⟨hroom, hle, heven, rfl⟩
  | ret =>
    obtain ⟨hsome, hlegal, hle, heven, rfl⟩ := exec_ret_next.1 h
    exact exec_ret_next.2 ⟨hsome, hlegal, hle, heven, rfl⟩
  | drw | ldB | ldMemVx | ldVxMem =>
    obtain ⟨hin, hnext⟩ := accessThen_next.1 h
    obtain rfl := Host.Outcome.next.inj hnext
    exact accessThen_next.2 ⟨hin, rfl⟩
  | ldVxK x =>
    obtain ⟨k, hk, rfl⟩ | ⟨hnone, rfl⟩ := exec_ldVxK_next.1 h
    · exact exec_ldVxK_next.2 (Or.inl ⟨k, hk, rfl⟩)
    · exact exec_ldVxK_next.2 (Or.inr ⟨hnone, rfl⟩)
  | _ =>
    obtain rfl := Host.Outcome.next.inj h
    rfl

/-- Settles O9: the command's byte and the model's stream reach CXKK alone. -/
theorem onlyRndReadsTheRandomByte : Obligations.OnlyRndReadsTheRandomByte := by
  intro s t ins i hf hd hi hstep
  have hexec : exec i s = .next t := (step_of_decode hf hd).symm.trans hstep
  refine ⟨fun rand8 => ?_, fun d => ?_⟩
  · have hsame : execWith rand8 i s = exec i s :=
      (rnd_or_execWith_eq rand8 i s).resolve_left fun ⟨x, kk, hrnd⟩ => hi x kk hrnd
    exact congrArg Prod.fst (stepCommand_of_next (fetchDecode_of_decode hf hd) (hsame.trans hexec))
  · have hf' : State.Fetches { s with randDraws := d } ins := hf
    rw [step_of_decode hf' hd, exec_randDraws hi d hexec]

/-! ### The jump to itself -/

/-- A PC that can be fetched fits an address field. -/
theorem toNat_ofNat_addr12 {pc : Word} (hpc : pc.toNat ≤ 0xFFE) : (BitVec.ofNat 12 pc.toNat).toNat = pc.toNat := by
  rw [BitVec.toNat_ofNat]
  omega

/-- A word `1nnn` is the jump to the address nnn of memory (R74, R142). -/
theorem decode_of_toNat_jp {ins pc : Word} (hpc : pc.toNat ≤ 0xFFE) (h : ins.toNat = 0x1000 + pc.toNat) :
    decode ins = .ok (.jp (BitVec.ofNat 12 pc.toNat)) := by
  have hword : encode (.jp (BitVec.ofNat 12 pc.toNat)) = ins := by
    apply BitVec.eq_of_toNat_eq
    rw [encode, packNnn_toNat, toNat_ofNat_addr12 hpc, h]
    rfl
  rw [← hword, decode_encode]

/-- A jump to PC leaves the state as it is (R107). -/
theorem step_of_self_jump {s : State} {ins : Word} (hf : s.Fetches ins) (h : ins.toNat = 0x1000 + s.pc.toNat) :
    step s = .next s := by
  obtain ⟨hle, heven, -⟩ := id hf
  rw [step_of_decode hf (decode_of_toNat_jp hle h), exec_jp, toNat_ofNat_addr12 hle, jumpTo_legal s hle heven,
    BitVec.ofNat_toNat, BitVec.setWidth_eq]
  rfl

/-- A state that steps to itself never errs. -/
theorem runsSafely_of_step_self {s : State} (h : step s = .next s) (k : Nat) : s.runsSafely k := by
  induction k with
  | zero => trivial
  | succ k ih => exact ⟨s, h, ih⟩

/-- Settles O10. -/
theorem selfJumpSpinsForever : Obligations.SelfJumpSpinsForever := by
  intro s ins hf h
  have hstep : step s = .next s := step_of_self_jump hf h
  exact ⟨hstep, runsSafely_of_step_self hstep⟩

end Sys2Proof.Machine
end

section
/-! The invariant (R38) holds at reset and every step and every command keep it; the statements O2 and O53 to O56. -/
namespace Sys2Proof.Machine

/-! ### Executing an instruction -/

/-- Where PC can be after an instruction, from a PC that can be fetched (R95). -/
theorem pc_cases_of_exec_next {i : Instr} {s t : State} (hpc : s.pc.toNat ≤ 0xFFE) (h : exec i s = .next t) :
    (t.pc.toNat ≤ 0xFFE ∧ t.pc.toNat % 2 = 0) ∨ t.pc = s.pc ∨ t.pc.toNat = s.pc.toNat + 2 ∨
      t.pc.toNat = s.pc.toNat + 4 := by
  have hways := pcAdvancesInFourWays i s t hpc h
  split at hways
  case h_11 =>
    split at hways
    · exact Or.inr (Or.inr (Or.inl hways))
    · exact Or.inr (Or.inl hways)
  all_goals omega

theorem regsUpTo_length (s : State) (x : Reg) : (s.regsUpTo x).length = x.val + 1 := by
  simp [State.regsUpTo]

/-- The two instructions that store check their addresses first, so that memory stays in canonical form. -/
theorem mem_wf_of_exec_next {i : Instr} {s t : State} (hwf : s.mem.wf = true) (h : exec i s = .next t) :
    t.mem.wf = true := by
  obtain ⟨hwriter, -⟩ := eachPartOfTheStateHasItsWriters i s t h
  by_cases hsame : t.mem = s.mem
  · rwa [hsame]
  obtain ⟨x, rfl | rfl⟩ := hwriter hsame
  · obtain ⟨hin, rfl⟩ := exec_ldB_next.1 h
    exact Memory.store_wf hwf (Or.inr hin)
  · obtain ⟨hin, rfl⟩ := exec_ldMemVx_next.1 h
    exact Memory.store_wf hwf (Or.inr (by rwa [regsUpTo_length]))

/-- RET takes one from an SP that is not 0, CALL adds one to an SP below 16. -/
theorem sp_le_of_exec_next {i : Instr} {s t : State} (hsp : s.sp.toNat ≤ 16) (h : exec i s = .next t) :
    t.sp.toNat ≤ 16 := by
  obtain ⟨-, -, hwriter, -⟩ := eachPartOfTheStateHasItsWriters i s t h
  by_cases hsame : t.sp = s.sp
  · rwa [hsame]
  obtain rfl | ⟨nnn, rfl⟩ := hwriter hsame
  · obtain ⟨hsome, -, -, -, rfl⟩ := exec_ret_next.1 h
    change (s.sp - 1#8).toNat ≤ 16
    bv_omega
  · obtain ⟨hroom, -, -, rfl⟩ := exec_call_next.1 h
    change (s.sp + 1#8).toNat ≤ 16
    bv_omega

theorem exec_keeps_inv {i : Instr} {s t : State} (hpc : s.pc.toNat ≤ 0xFFE) (hinv : s.Inv) (h : exec i s = .next t) :
    t.Inv := by
  obtain ⟨hwf, hsp, heven⟩ := hinv
  refine ⟨mem_wf_of_exec_next hwf h, sp_le_of_exec_next hsp h, ?_⟩
  obtain ⟨-, ht⟩ | ht | ht | ht := pc_cases_of_exec_next hpc h
  · exact ht
  · rwa [ht]
  · omega
  · omega

theorem execWith_keeps_inv {rand8 : Byte} {i : Instr} {s t : State} (hpc : s.pc.toNat ≤ 0xFFE) (hinv : s.Inv)
    (h : execWith rand8 i s = .next t) : t.Inv := by
  obtain ⟨x, kk, rfl⟩ | hsame := rnd_or_execWith_eq rand8 i s
  · obtain rfl := Host.Outcome.next.inj h
    obtain ⟨hwf, hsp, heven⟩ := hinv
    have hnext : (s.setReg x (rand8 &&& kk)).advance.pc.toNat = s.pc.toNat + 2 := toNat_pc_advance rfl hpc
    exact ⟨hwf, hsp, by omega⟩
  · exact exec_keeps_inv hpc hinv (hsame.symm.trans h)

/-! ### Steps -/

/-- Settles O53: the step executed an instruction from a PC inside memory. -/
theorem stepKeepsTheInvariant : Obligations.StepKeepsTheInvariant := by
  intro s t hinv h
  obtain ⟨i, hpc, hexec⟩ := exec_of_step_next h
  exact exec_keeps_inv hpc hinv hexec

/-- Settles O56: the step executed from a PC up to 0xFFE, and leaves PC at most 4 above it. -/
theorem pcNeverWraps : Obligations.PcNeverWraps := by
  intro s t h
  obtain ⟨i, hpc, hexec⟩ := exec_of_step_next h
  obtain ⟨ht, -⟩ | ht | ht | ht := pc_cases_of_exec_next hpc hexec
  · omega
  · rw [ht]
    omega
  · omega
  · omega

/-! ### Commands -/

/-- Settles O2. -/
theorem resetMeetsTheInvariant : Obligations.ResetMeetsTheInvariant := ⟨rfl, by decide, by decide⟩

theorem stepCommand_keeps_inv (rand8 : Byte) {s : State} (hinv : s.Inv) : (stepCommand rand8 s).1.Inv := by
  cases hi : fetchDecode s with
  | error e => rwa [stepCommand_of_fetchDecode_error rand8 hi]
  | ok i =>
    cases hexec : execWith rand8 i s with
    | next t =>
      rw [stepCommand_of_next hi hexec]
      exact execWith_keeps_inv (pc_le_of_fetchDecode hi) hinv hexec
    | fault e => rwa [stepCommand_of_fault hi hexec]
    | refused r => rwa [stepCommand_of_refused hi hexec]

/-- A program that fits is copied to 0x200 (R99). -/
theorem loadProgram_of_fits {bytes : List Byte} (h : bytes.length ≤ 0xE00) (s : State) :
    loadProgram bytes s = (s.setMem (s.mem.store 0x200 bytes), .done) := if_neg (Nat.not_lt.2 h)

/-- A program that does not fit is refused as a whole (R99). -/
theorem loadProgram_of_long {bytes : List Byte} (h : 0xE00 < bytes.length) (s : State) :
    loadProgram bytes s = (s, .error (.addressOutOfBounds 0x1000)) := if_pos h

theorem loadProgram_keeps_inv (bytes : List Byte) {s : State} (hinv : s.Inv) : (loadProgram bytes s).1.Inv := by
  rcases Nat.lt_or_ge 0xE00 bytes.length with hlong | hfits
  · rwa [loadProgram_of_long hlong]
  · obtain ⟨hwf, hrest⟩ := hinv
    rw [loadProgram_of_fits hfits]
    exact ⟨Memory.store_wf hwf (Or.inr (by omega)), hrest⟩

/-- What R104 asks of a snapshot. -/
theorem Snapshot.wellFormed_iff (p : Snapshot) : p.wellFormed = true ↔
    p.mem.length = 4096 ∧ p.v.length = 16 ∧ p.stack.length = 16 ∧ p.fb.length = 32 ∧ p.key.length = 16 ∧
      p.sp.toNat ≤ 16 ∧ p.pc.toNat % 2 = 0 := by
  simp [Snapshot.wellFormed, and_assoc]

theorem restoreState_of_wellFormed {p : Snapshot} (h : p.wellFormed = true) (s : State) :
    restoreState (some p) s = (p.toState s.randDraws, .done) := if_pos h

theorem restoreState_of_malformed {p : Snapshot} (h : ¬ p.wellFormed = true) (s : State) :
    restoreState (some p) s = (s, .restoreError) := if_neg h

theorem restoreState_keeps_inv (data : Option Snapshot) {s : State} (hinv : s.Inv) :
    (restoreState data s).1.Inv := by
  cases data with
  | none => exact hinv
  | some p =>
    by_cases hp : p.wellFormed = true
    · obtain ⟨hmem, -, -, -, -, hsp, hpc⟩ := (Snapshot.wellFormed_iff p).1 hp
      rw [restoreState_of_wellFormed hp]
      exact ⟨Memory.ofBytes_wf p.mem (by omega), hsp, hpc⟩
    · rwa [restoreState_of_malformed hp]

/-- Settles O54: the four commands that write memory, SP or PC keep the invariant, the others reach none of them. -/
theorem commandsKeepTheInvariant : Obligations.CommandsKeepTheInvariant := by
  intro c s hinv
  cases c with
  | reset => exact resetMeetsTheInvariant
  | loadProgram bytes => exact loadProgram_keeps_inv bytes hinv
  | step rand8 => exact stepCommand_keeps_inv rand8 hinv
  | restoreState data => exact restoreState_keeps_inv data hinv
  | tickTimers | setKey | getFramebuffer | getRegisters | captureState => exact hinv

theorem runCommands_keeps_inv (cs : List Command) {s : State} (hinv : s.Inv) : (runCommands cs s).Inv := by
  induction cs generalizing s with
  | nil => exact hinv
  | cons c cs ih => exact ih (commandsKeepTheInvariant c s hinv)

/-- Settles O55: the invariant holds at reset and along every sequence of commands. -/
theorem reachableStatesMeetTheInvariant : Obligations.ReachableStatesMeetTheInvariant := by
  rintro s ⟨cs, rfl⟩
  exact runCommands_keeps_inv cs resetMeetsTheInvariant

end Sys2Proof.Machine
end

section
/-! Which instructions raise which engine errors (R210), and the statement O60. -/
namespace Sys2Proof.Machine

/-- The error `e` is one that R210 lets the instruction `i` raise. -/
def RaisedBy (i : Instr) (e : Fault) : Prop :=
  (e = .stackOverflow ∧ ∃ nnn, i = .call nnn) ∨ (e = .stackUnderflow ∧ i = .ret) ∨
  ((∃ a, e = .misalignedPc a ∧ a % 2 = 1) ∧ (i = .ret ∨ ∃ nnn, i = .jp nnn ∨ i = .call nnn ∨ i = .jpV0 nnn)) ∨
  ((∃ a, e = .addressOutOfBounds a ∧ 0xFFE < a ∧ a ≤ 0xFFFF) ∧
    ((i = .ret ∨ ∃ nnn, i = .jp nnn ∨ i = .call nnn ∨ i = .jpV0 nnn) ∨
      (∃ x y n, i = .drw x y n) ∨ ∃ x, i = .ldB x ∨ i = .ldMemVx x ∨ i = .ldVxMem x))

/-- What the check of a 16-bit target raises is one of the two errors of a control transfer. -/
theorem raisedBy_of_jumpTo_fault {i : Instr} {a : Nat} {s : State} {e : Fault}
    (hi : i = .ret ∨ ∃ nnn, i = .jp nnn ∨ i = .call nnn ∨ i = .jpV0 nnn) (ha : a ≤ 0xFFFF)
    (h : jumpTo a s = .fault e) : RaisedBy i e := by
  obtain ⟨habove, rfl⟩ | ⟨-, hodd, rfl⟩ := jumpTo_fault.1 h
  · exact Or.inr (Or.inr (Or.inr ⟨⟨a, rfl, habove, ha⟩, Or.inl hi⟩))
  · exact Or.inr (Or.inr (Or.inl ⟨⟨a, rfl, hodd⟩, hi⟩))

/-- What an access through I raises is the one error of the instructions that access memory. -/
theorem raisedBy_of_accessThen_fault {i : Instr} {s u : State} {n : Nat} {e : Fault}
    (hi : (∃ x y n, i = .drw x y n) ∨ ∃ x, i = .ldB x ∨ i = .ldMemVx x ∨ i = .ldVxMem x)
    (h : accessThen s.dataAddress n (.next u) = .fault e) : RaisedBy i e := by
  have hI : s.dataAddress < 0x10000 := s.i.isLt
  exact Or.inr (Or.inr (Or.inr ⟨⟨max s.dataAddress 4096, accessThen_fault h, by omega, by omega⟩, Or.inr hi⟩))

theorem offsetTarget_le (s : State) (nnn : Addr12) : s.offsetTarget nnn ≤ 0xFFFF := by
  have hnnn := nnn.isLt
  have hreg := (s.reg 0).isLt
  rw [State.offsetTarget]
  omega

/-- Every error of an instruction has its source, where SP is legal. -/
theorem raisedBy_of_exec_fault {i : Instr} {s : State} {e : Fault} (hsp : s.sp.toNat ≤ 16)
    (h : exec i s = .fault e) : RaisedBy i e := by
  cases i with
  | jp nnn => exact raisedBy_of_jumpTo_fault (by simp) (by have := nnn.isLt; omega) h
  | jpV0 nnn => exact raisedBy_of_jumpTo_fault (by simp) (offsetTarget_le s nnn) h
  | call nnn =>
    obtain ⟨_, hjump⟩ | ⟨-, rfl⟩ | ⟨hill, -⟩ := pushThen_fault h
    · exact raisedBy_of_jumpTo_fault (by simp) (by have := nnn.isLt; omega) hjump
    · exact Or.inl ⟨rfl, nnn, rfl⟩
    · omega
  | ret =>
    rw [exec_ret] at h
    obtain ⟨-, rfl⟩ | ⟨_, _, hjump⟩ | ⟨hill, -⟩ := popThen_fault h
    · exact Or.inr (Or.inl ⟨rfl, rfl⟩)
    · exact raisedBy_of_jumpTo_fault (by simp) (Nat.le_of_lt_succ (BitVec.isLt _)) hjump
    · omega
  | drw | ldB | ldMemVx | ldVxMem => exact raisedBy_of_accessThen_fault (by simp) h
  | ldVxK x =>
    rw [exec, execLdVxK] at h
    split at h <;> cases h
  | _ => cases h

theorem exec_not_refused (i : Instr) (s : State) (r : Refusal) : exec i s ≠ .refused r := by
  cases i with
  | jp | jpV0 => exact jumpTo_not_refused _ s r
  | call nnn => exact pushThen_not_refused fun u => jumpTo_not_refused _ u r
  | ret =>
    rw [exec_ret]
    exact popThen_not_refused fun w u => jumpTo_not_refused _ u r
  | drw | ldB | ldMemVx | ldVxMem => exact accessThen_not_refused
  | ldVxK x =>
    rw [exec, execLdVxK]
    split <;> exact nofun
  | _ => exact nofun

theorem step_not_refused (s : State) (r : Refusal) : step s ≠ .refused r := by
  obtain ⟨ins, i, -, -, hstep⟩ | ⟨ins, _, -, -, hstep⟩ | ⟨e, -, hstep⟩ := step_cases s
  · rw [hstep]
    exact exec_not_refused i s r
  · exact hstep ▸ nofun
  · exact hstep ▸ nofun

theorem step_ne_spOutOfRange {s : State} (hsp : s.sp.toNat ≤ 16) (b : Byte) : step s ≠ .fault (.spOutOfRange b) := by
  intro h
  obtain ⟨ins, i, -, -, hstep⟩ | ⟨ins, _, -, -, hstep⟩ | ⟨e, hfetch, hstep⟩ := step_cases s
  · simpa [RaisedBy] using raisedBy_of_exec_fault hsp (hstep.symm.trans h)
  · exact nomatch hstep.symm.trans h
  · obtain rfl : e = .spOutOfRange b := Host.Outcome.fault.inj (hstep.symm.trans h)
    simpa using fetch_error_kind hfetch

/-- Settles O60. -/
theorem engineErrorsHaveTheirSources : Obligations.EngineErrorsHaveTheirSources :=
  ⟨fun _ _ _ ⟨_, hsp, _⟩ => raisedBy_of_exec_fault hsp, step_not_refused,
    fun _ b ⟨_, hsp, _⟩ => step_ne_spOutOfRange hsp b⟩

end Sys2Proof.Machine
end

section
/-! The reset state and the first fetch after a load: the statements O1 and O3. -/
namespace Sys2Proof.Machine

theorem State.read_reset_mem (a : Nat) : State.reset.mem.read a = Memory.unlisted a := rfl

/-- Each byte of the font stands at its place from FONT_BASE (R31). -/
theorem Memory.unlisted_fontBase_add {k : Nat} {b : Byte} (h : fontGlyphs[k]? = some b) :
    Memory.unlisted (fontBase + k) = b := by
  obtain ⟨hk, -⟩ := List.getElem?_eq_some_iff.1 h
  rw [Memory.unlisted_font k (fontGlyphs_length ▸ hk), List.getD_eq_getElem?_getD, h, Option.getD_some]

/-- Settles O1: memory is unlisted, hence the font and zeros, and the other parts are written out. -/
theorem resetLeavesTheStatedValues : Obligations.ResetLeavesTheStatedValues := by
  have hfont := fontBase_le
  exact ⟨by omega, fun a ha => Memory.unlisted_outside a ha, fun k b hb => Memory.unlisted_fontBase_add hb,
    by decide, rfl, rfl, rfl, by decide, rfl, rfl, fun x y _ _ => Frame.pixel_blank x y, by decide⟩

/-- With nothing loaded the word at PC is zero (R244). -/
theorem reset_fetches_zero : State.reset.Fetches 0x0000#16 := by
  have hpc : State.reset.pc.toNat = 0x200 := rfl
  have hhi := Memory.unlisted_program 0x200 (by decide)
  have hlo := Memory.unlisted_program 0x201 (by decide)
  refine ⟨by decide, by decide, ?_⟩
  rw [hpc, State.read_reset_mem, State.read_reset_mem, hhi, hlo]
  rfl

/-- After `reset` and `load_program` of a program that fits, memory is the program at 0x200 over the reset
contents. -/
theorem runCommands_reset_loadProgram {bytes : List Byte} (h : bytes.length ≤ 0xE00) (s : State) :
    runCommands [.reset, .loadProgram bytes] s = (resetCommand s).setMem (Memory.store [] 0x200 bytes) :=
  congrArg Prod.fst (loadProgram_of_fits h (resetCommand s))

/-- Settles O3: the word 0000 at PC after reset is illegal, and a loaded program's first two bytes are read at
0x200 and 0x201. -/
theorem bootFetchesTheLoadedProgram : Obligations.BootFetchesTheLoadedProgram := by
  refine ⟨fun _ => rfl, ?_, fun hi lo rest s hlen => ?_⟩
  · have hreject : decode 0x0000#16 = .error (.unknownInstruction 0x0000#16) := by decide
    obtain ⟨hstep, -⟩ := unknownWordFaultsAndChangesNothing _ _ _ 0#8 reset_fetches_zero hreject
    exact hstep
  · have hread := Memory.read_store_inside (m := []) rfl (show 0x200 + (hi :: lo :: rest).length ≤ 4096 by omega)
    rw [runCommands_reset_loadProgram hlen]
    exact ⟨show 0x200 ≤ 0xFFE by decide, show 0x200 % 2 = 0 from rfl,
      congrArg₂ (· ++ ·) (hread 0 (by simp)).symm (hread 1 (by simp)).symm⟩

end Sys2Proof.Machine
end

section
/-! The ALU instructions: a result, or a result and then a flag, in the registers, and the sequential advance; the
statements O18 to O24. -/
namespace Sys2Proof.Machine

/-! ### A result alone -/

/-- `V[x]` after a result was written and PC advanced. -/
theorem State.reg_advance_setReg_same (s : State) (x : Reg) (b : Byte) : (s.setReg x b).advance.reg x = b := by
  rw [State.reg_advance, State.reg_setReg, if_pos rfl]

theorem State.sameRegsExcept_advance_setReg (s : State) (x : Reg) (b : Byte) :
    s.SameRegsExcept [x] (s.setReg x b).advance := by
  intro r hr
  rw [State.reg_advance, State.reg_setReg, if_neg (by simpa using hr)]

/-- A state that differs in the registers, PC and the model's counter only. -/
theorem State.sameButRegs_of_eq {s t : State} (h : t = { s with v := t.v, pc := t.pc, randDraws := t.randDraws }) :
    s.SameButRegs t := by
  rw [h]
  exact ⟨fun _ => rfl, rfl, ⟨rfl, rfl⟩, ⟨rfl, rfl⟩, rfl, rfl⟩

/-- Settles O18. -/
theorem addImmediateWrapsWithoutCarry : Obligations.AddImmediateWrapsWithoutCarry := by
  intro x kk s
  refine ⟨(s.setReg x (s.reg x + kk)).advance, rfl, ?_, s.sameRegsExcept_advance_setReg x _, rfl⟩
  rw [State.reg_advance_setReg_same, BitVec.toNat_add]

/-- Settles O19. -/
theorem logicIsBitwiseAndKeepsVf : Obligations.LogicIsBitwiseAndKeepsVf := by
  intro x y s
  refine ⟨⟨(s.setReg x (s.reg x ||| s.reg y)).advance, rfl, fun j _ => ?_, s.sameRegsExcept_advance_setReg x _, rfl⟩,
    ⟨(s.setReg x (s.reg x &&& s.reg y)).advance, rfl, fun j _ => ?_, s.sameRegsExcept_advance_setReg x _, rfl⟩,
    ⟨(s.setReg x (s.reg x ^^^ s.reg y)).advance, rfl, fun j _ => ?_, s.sameRegsExcept_advance_setReg x _, rfl⟩⟩
  · rw [State.reg_advance_setReg_same, BitVec.getLsbD_or]
  · rw [State.reg_advance_setReg_same, BitVec.getLsbD_and]
  · rw [State.reg_advance_setReg_same, BitVec.getLsbD_xor]

/-- Settles O23: the stream's byte for exec, the command's byte for the command. -/
theorem randomByteIsMasked : Obligations.RandomByteIsMasked := by
  intro x kk s
  exact ⟨⟨Config.hostRand8 s.randDraws, (s.countDraw.setReg x (Config.hostRand8 s.randDraws &&& kk)).advance, rfl,
    s.countDraw.reg_advance_setReg_same x _, s.countDraw.sameRegsExcept_advance_setReg x _, rfl,
    State.sameButRegs_of_eq rfl⟩, fun _ => rfl⟩

/-! ### A result and then a flag (R110) -/

theorem State.sameRegsExcept_advance_setRegFlag (s : State) (x : Reg) (b : Byte) (f : Bool) :
    s.SameRegsExcept [x, 0xF] (s.setRegFlag x b f).advance := by
  intro r hr
  have hne : r ≠ x ∧ r ≠ vf := by simpa using hr
  rw [State.reg_advance, State.reg_setRegFlag, if_neg hne.right, if_neg hne.left]

/-- What an instruction with a flag leaves: the result unless x = 0xF, the flag in VF, and the rest as before. -/
theorem flagResult_spec (s : State) (x : Reg) (b : Byte) (f : Bool) :
    ∃ t, (.next (s.setRegFlag x b f).advance : Result) = .next t ∧ (x ≠ 0xF → t.reg x = b) ∧
      t.reg 0xF = flagByte f ∧ s.SameRegsExcept [x, 0xF] t ∧ t = { s with v := t.v, pc := s.pc + 2#16 } := by
  refine ⟨_, rfl, fun hx => ?_, ?_, s.sameRegsExcept_advance_setRegFlag x b f, rfl⟩
  · rw [State.reg_advance, State.reg_setRegFlag, if_neg hx, if_pos rfl]
  · rw [State.reg_advance, State.reg_setRegFlag, if_pos rfl]

theorem flagByte_decide (p : Prop) [Decidable p] : flagByte (decide p) = if p then 1#8 else 0#8 := by
  simp [flagByte]

theorem toNat_flagByte (b : Bool) : (flagByte b).toNat = b.toNat := by
  cases b <;> rfl

/-- Settles O20. -/
theorem addRegistersSetsCarry : Obligations.AddRegistersSetsCarry := by
  intro x y s
  obtain ⟨t, ht, hx, hvf, hframe⟩ := flagResult_spec s x (s.reg x + s.reg y) (carryOut (s.reg x) (s.reg y))
  refine ⟨t, ht, fun hne => ?_, ?_, hframe⟩
  · rw [hx hne, BitVec.toNat_add]
  · rw [hvf, carryOut, flagByte_decide]

/-- Subtraction of bytes as numbers, the minuend raised by 0x100 before. -/
theorem toNat_sub_byte (a b : Byte) : (a - b).toNat = (a.toNat + 0x100 - b.toNat) % 0x100 := by
  have hlt := b.isLt
  rw [BitVec.toNat_sub]
  omega

/-- Settles O21. -/
theorem subtractionsSetNoBorrow : Obligations.SubtractionsSetNoBorrow := by
  intro x y s
  constructor
  · obtain ⟨t, ht, hx, hvf, hframe⟩ := flagResult_spec s x (s.reg x - s.reg y) (noBorrow (s.reg x) (s.reg y))
    refine ⟨t, ht, fun hne => ?_, ?_, hframe⟩
    · rw [hx hne, toNat_sub_byte]
    · rw [hvf, noBorrow, flagByte_decide]
  · obtain ⟨t, ht, hx, hvf, hframe⟩ := flagResult_spec s x (s.reg y - s.reg x) (noBorrow (s.reg y) (s.reg x))
    refine ⟨t, ht, fun hne => ?_, ?_, hframe⟩
    · rw [hx hne, toNat_sub_byte]
    · rw [hvf, noBorrow, flagByte_decide]

/-- A bit of a byte as a number. -/
theorem toNat_getLsbD (b : Byte) (j : Nat) : (b.getLsbD j).toNat = b.toNat / 2 ^ j % 2 := by
  rw [BitVec.getLsbD, Nat.toNat_testBit]

theorem toNat_shiftedOutRight (b : Byte) : (shiftedOutRight b).toNat = b.toNat % 2 := by
  rw [shiftedOutRight, toNat_getLsbD, Nat.pow_zero, Nat.div_one]

theorem toNat_shiftedOutLeft (b : Byte) : (shiftedOutLeft b).toNat = b.toNat / 0x80 := by
  have hlt := b.isLt
  rw [shiftedOutLeft, toNat_getLsbD]
  omega

/-- Settles O22. -/
theorem shiftsAreInPlaceAndSetTheBitShiftedOut : Obligations.ShiftsAreInPlaceAndSetTheBitShiftedOut := by
  intro x y s
  constructor
  · obtain ⟨t, ht, hx, hvf, hframe⟩ := flagResult_spec s x (s.reg x >>> 1) (shiftedOutRight (s.reg x))
    refine ⟨t, ht, fun hne => ?_, ?_, hframe⟩
    · rw [hx hne, BitVec.toNat_ushiftRight, Nat.shiftRight_one]
    · rw [hvf, toNat_flagByte, toNat_shiftedOutRight]
  · obtain ⟨t, ht, hx, hvf, hframe⟩ := flagResult_spec s x (s.reg x <<< 1) (shiftedOutLeft (s.reg x))
    refine ⟨t, ht, fun hne => ?_, ?_, hframe⟩
    · rw [hx hne, BitVec.toNat_shiftLeft, Nat.shiftLeft_eq, Nat.mul_comm]
    · rw [hvf, toNat_flagByte, toNat_shiftedOutLeft]

/-! ### The frame -/

/-- Settles O24: the first list writes a result, the second a result and a flag. -/
theorem aluFrame : Obligations.AluFrame := by
  intro x y kk i s t h
  simp only [List.mem_cons, List.not_mem_nil, or_false]
  constructor
  · rintro (rfl | rfl | rfl | rfl | rfl | rfl | rfl) <;> obtain rfl := Host.Outcome.next.inj h <;>
      exact ⟨State.sameRegsExcept_advance_setReg _ x _, State.sameButRegs_of_eq rfl⟩
  · rintro (rfl | rfl | rfl | rfl | rfl) <;> obtain rfl := Host.Outcome.next.inj h <;>
      exact ⟨s.sameRegsExcept_advance_setRegFlag x _ _, State.sameButRegs_of_eq rfl⟩

end Sys2Proof.Machine
end

section
/-! The control transfers and the key skips: the statements O25 to O28, O30 and O31. -/
namespace Sys2Proof.Machine

/-- Settles O25: both jumps are the checked transfer to their target. -/
theorem jumpsGoToCheckedTargets : Obligations.JumpsGoToCheckedTargets := by
  rintro nnn i target s (⟨rfl, rfl⟩ | ⟨rfl, rfl⟩)
  · exact ⟨jumpTo_legal s, jumpTo_out s, jumpTo_odd s⟩
  · exact ⟨jumpTo_legal s, jumpTo_out s, jumpTo_odd s⟩

/-- Settles O26: the push comes first, so that the target is checked only where there is room. -/
theorem callPushesTheReturnAddress : Obligations.CallPushesTheReturnAddress := by
  intro nnn s
  refine ⟨fun hroom hle heven => ?_, fun hfull => pushThen_full hfull, fun hroom hout => ?_,
    fun hroom hle hodd => ?_, fun hill => pushThen_illegal hill⟩
  · refine ⟨_, exec_call_next.2 ⟨hroom, hle, heven, rfl⟩, ?_, ?_, fun j => ?_, rfl⟩
    · rw [BitVec.toNat_ofNat]
      omega
    · change (s.sp + 1#8).toNat = s.sp.toNat + 1
      bv_omega
    · simp only [Vector.getElem_set, State.returnAddress, eq_comm]
  · rw [exec_call, pushThen_room hroom, jumpTo_out _ hout]
  · rw [exec_call, pushThen_room hroom, jumpTo_odd _ hle hodd]

/-- A pop with SP = j + 1 takes entry j. -/
theorem popThen_of_sp_eq_succ {rest : Word → State → Result} {s : State} {j : Fin 16}
    (hsp : s.sp.toNat = j.val + 1) : popThen rest s = rest s.stack[j.val] { s with sp := s.sp - 1#8 } := by
  rw [popThen_some (by omega) (by omega)]
  simp [hsp]

/-- Settles O27: the pop comes first, and the popped address is checked as a target. -/
theorem returnPopsTheReturnAddress : Obligations.ReturnPopsTheReturnAddress := by
  intro s
  rw [exec_ret]
  refine ⟨fun hempty => popThen_empty hempty, fun hill => popThen_illegal hill, ?_⟩
  rintro j target hsp rfl
  rw [popThen_of_sp_eq_succ hsp]
  refine ⟨fun hle heven => ⟨_, jumpTo_legal _ hle heven, ?_, ?_⟩, jumpTo_out _, jumpTo_odd _⟩
  · change (s.sp - 1#8).toNat = j.val
    bv_omega
  · simp [State.setPc]

theorem State.ofNat_toNat_returnAddress (s : State) :
    BitVec.ofNat 16 s.returnAddress.toNat = s.returnAddress := by
  rw [BitVec.ofNat_toNat, BitVec.setWidth_eq]

/-- Settles O28: the pop takes the entry that the push wrote, which is a legal target. -/
theorem returnUndoesCall : Obligations.ReturnUndoesCall := by
  intro nnn s t hpc heven h
  obtain ⟨hroom, -, -, rfl⟩ := exec_call_next.1 h
  have hsp : (s.sp + 1#8).toNat = s.sp.toNat + 1 := by bv_omega
  have hback : s.sp + 1#8 - 1#8 = s.sp := by bv_omega
  have hret : s.returnAddress.toNat = s.pc.toNat + 2 := by
    rw [State.returnAddress]
    bv_omega
  rw [exec_ret, popThen_of_sp_eq_succ (j := ⟨s.sp.toNat, hroom⟩) hsp]
  simp only [hback, Vector.getElem_set_self]
  rw [jumpTo_legal _ (by omega) (by omega), State.ofNat_toNat_returnAddress]
  rfl

/-- SKP skips when the key is pressed (R191). -/
theorem exec_skp (x : Reg) (s : State) : exec (.skp x) s = .next (s.skipIf (s.pressed (s.keyOf x))) := rfl

/-- SKNP skips when it is not (R192). -/
theorem exec_sknp (x : Reg) (s : State) : exec (.sknp x) s = .next (s.skipIf (!s.pressed (s.keyOf x))) := rfl

/-- Settles O30: each is one skip on the compared registers, or on the key that the low nibble names. -/
theorem skipsOnRegistersAndKeys : Obligations.SkipsOnRegistersAndKeys := by
  intro x y s
  refine ⟨congrArg _ (s.skipIf_eq_of_iff beq_iff_eq), congrArg _ (s.skipIf_eq_of_iff bne_iff_ne), fun k hk => ?_⟩
  have hkey : s.keyOf x = k := Fin.ext hk.symm
  have hnot : (!s.pressed k) = true ↔ ¬ s.pressed k = true := by simp
  constructor
  · rw [exec_skp, hkey, s.skipIf_eq_of_iff Iff.rfl]
  · rw [exec_sknp, hkey, s.skipIf_eq_of_iff hnot, ite_not]

/-- The control transfers and the key skips write PC, SP and the stack only. -/
theorem control_writes {x y : Reg} {kk : Byte} {nnn : Addr12} {i : Instr} {s t : State} (h : exec i s = .next t)
    (hi : i ∈ [.ret, .jp nnn, .call nnn, .jpV0 nnn, .seImm x kk, .sneImm x kk, .seReg x y, .sneReg x y, .skp x,
      .sknp x]) : t = { s with pc := t.pc, sp := t.sp, stack := t.stack } := by
  simp only [List.mem_cons, List.not_mem_nil, or_false] at hi
  obtain rfl | rfl | rfl | rfl | hskip := hi
  · obtain ⟨_, _, -, -, rfl⟩ := exec_ret_next.1 h
    rfl
  · obtain ⟨-, -, rfl⟩ := jumpTo_next.1 h
    rfl
  · obtain ⟨_, -, -, rfl⟩ := exec_call_next.1 h
    rfl
  · obtain ⟨-, -, rfl⟩ := jumpTo_next.1 h
    rfl
  · obtain rfl | rfl | rfl | rfl | rfl | rfl := hskip <;> obtain rfl := Host.Outcome.next.inj h <;> rfl

/-- Settles O31: the state but for PC and the stack is as before, and only CALL and RET are writers of the stack. -/
theorem controlFrame : Obligations.ControlFrame := by
  intro x y kk nnn i s t h
  refine ⟨fun hi => ?_, fun hi => ?_, ?_, ?_⟩
  · rw [control_writes h hi]
    exact ⟨fun _ _ => rfl, fun _ => rfl, rfl, ⟨rfl, rfl⟩, rfl, rfl⟩
  · obtain ⟨-, -, hsp, hstack, -⟩ := eachPartOfTheStateHasItsWriters i s t h
    have hne : i ≠ .ret ∧ ∀ nnn', i ≠ .call nnn' := by
      simp only [List.mem_cons, List.not_mem_nil, or_false] at hi
      obtain rfl | rfl | rfl | rfl | rfl | rfl | rfl | rfl := hi <;> exact ⟨nofun, fun _ => nofun⟩
    exact ⟨by simpa [hne] using hsp, by simpa [hne] using hstack⟩
  · rintro rfl
    obtain ⟨_, _, -, -, rfl⟩ := exec_ret_next.1 h
    rfl
  · rintro rfl j hj
    obtain ⟨hroom, -, -, rfl⟩ := exec_call_next.1 h
    exact Vector.getElem_set_ne hroom _ hj.symm

end Sys2Proof.Machine
end

section
/-! The index register and memory: the statements O33 to O38. -/
namespace Sys2Proof.Machine

/-! ### Writes of I -/

/-- The font ends below 0x200, so that a glyph's address does not wrap (R163). -/
theorem toNat_glyphAddress (b : Byte) : (glyphAddress b).toNat = fontBase + 5 * (b.toNat % 16) := by
  have hfont := fontBase_le
  have hnibble : (lowNibble b).val = b.toNat % 16 := rfl
  rw [glyphAddress, BitVec.toNat_ofNat, hnibble]
  omega

/-- Settles O33. -/
theorem addToIndexAndPointAtGlyph : Obligations.AddToIndexAndPointAtGlyph := by
  intro x s
  refine ⟨⟨(s.setI (s.i + (s.reg x).setWidth 16)).advance, rfl, ?_, rfl⟩,
    ⟨(s.setI (glyphAddress (s.reg x))).advance, rfl, ?_, rfl⟩⟩
  · rw [State.i_advance, State.i_setI, BitVec.toNat_add, BitVec.toNat_setWidth_of_le (by decide)]
  · rw [State.i_advance, State.i_setI, toNat_glyphAddress]

/-! ### Stores -/

/-- Byte `k` of a run that was stored inside memory. -/
theorem Memory.read_store_of_getElem? {m : Memory} (hm : m.wf = true) {a k : Nat} {bs : List Byte} {b : Byte}
    (hin : a + bs.length ≤ 4096) (hb : bs[k]? = some b) : (m.store a bs).read (a + k) = b := by
  obtain ⟨hk, rfl⟩ := List.getElem?_eq_some_iff.1 hb
  exact Memory.read_store_inside hm hin k hk

theorem State.sameMemoryOutside_store (s : State) (a : Nat) (bs : List Byte) :
    s.SameMemoryOutside a bs.length (s.setMem (s.mem.store a bs)).advance :=
  fun b hb => Memory.read_store_outside s.mem a b bs hb

theorem State.sameMemoryOutside_store_regsUpTo (s : State) (a : Nat) (x : Reg) :
    s.SameMemoryOutside a (x.val + 1) (s.setMem (s.mem.store a (s.regsUpTo x))).advance :=
  regsUpTo_length s x ▸ s.sameMemoryOutside_store a (s.regsUpTo x)

theorem State.regsUpTo_getElem? (s : State) {x r : Reg} (h : r ≤ x) :
    (s.regsUpTo x)[r.val]? = some (s.reg r) := by
  have hlt : r.val < x.val + 1 := Nat.lt_succ_of_le h
  simp [State.regsUpTo, State.reg, hlt]

/-- `FX55` stores each register up to V[x] at its address (R165). -/
theorem State.read_store_regsUpTo {s : State} (hwf : s.mem.wf = true) {x r : Reg}
    (hin : s.i.toNat + (x.val + 1) ≤ 4096) (hr : r ≤ x) :
    (s.mem.store s.i.toNat (s.regsUpTo x)).read (s.i.toNat + r.val) = s.reg r :=
  Memory.read_store_of_getElem? hwf (by rwa [regsUpTo_length]) (s.regsUpTo_getElem? hr)

/-- Settles O34: the digits are the run that is stored. -/
theorem storeDecimalDigits : Obligations.StoreDecimalDigits := by
  intro x s hwf
  refine ⟨fun hin => ?_, fun hout => accessThen_outside (by decide) hout⟩
  have hdigit {k : Nat} {b : Byte} (hb : (decimalDigits (s.reg x))[k]? = some b) :
      ((s.mem.store s.i.toNat (decimalDigits (s.reg x))).read (s.i.toNat + k)).toNat = b.toNat :=
    congrArg BitVec.toNat (Memory.read_store_of_getElem? hwf hin hb)
  have hlt := (s.reg x).isLt
  refine ⟨_, exec_ldB_next.2 ⟨hin, rfl⟩, (hdigit (k := 0) rfl).trans ?_, (hdigit (k := 1) rfl).trans ?_,
    (hdigit (k := 2) rfl).trans ?_, s.sameMemoryOutside_store _ (decimalDigits (s.reg x)), rfl⟩
  · rw [BitVec.toNat_ofNat]
    omega
  · rw [BitVec.toNat_ofNat]
    omega
  · rw [BitVec.toNat_ofNat]
    omega

/-- Settles O35: the registers up to V[x] are the run that is stored. -/
theorem storeRegistersThroughIndex : Obligations.StoreRegistersThroughIndex := by
  intro x s hwf
  simp only [Nat.add_assoc]
  refine ⟨fun hin => ?_, fun hout => accessThen_outside (Nat.succ_ne_zero x.val) hout⟩
  exact ⟨_, exec_ldMemVx_next.2 ⟨hin, rfl⟩, fun r hr => State.read_store_regsUpTo hwf hin hr,
    s.sameMemoryOutside_store_regsUpTo s.i.toNat x, rfl⟩

/-- Settles O38: the two bytes at the next PC are the first two of the run that is stored. -/
theorem storedBytesAreFetchedNext : Obligations.StoredBytesAreFetchedNext := by
  intro x s t hwf heven hpc hi hx h
  obtain ⟨hin, rfl⟩ := exec_ldMemVx_next.1 h
  have hread {r : Reg} (hr : r ≤ x) := State.read_store_regsUpTo hwf hin hr
  have hnext : (s.setMem (s.mem.store s.dataAddress (s.regsUpTo x))).advance.pc.toNat = s.i.toNat :=
    (toNat_pc_advance (s := s) rfl (by omega)).trans hi.symm
  refine fetch_of_fetches ⟨by omega, by omega, ?_⟩
  rw [hnext]
  exact congrArg₂ (· ++ ·) (hread (Fin.zero_le x)).symm (hread (r := 1) hx).symm

/-! ### Loads -/

/-- Loaded registers followed by the sequential advance, as one record update. (The registers are held abstract, so
that no comparison computes the vector.) -/
theorem State.advance_setRegs (s : State) (bs : List Byte) :
    (s.setRegs bs).advance = { s with v := (s.setRegs bs).advance.v, pc := s.pc + 2#16 } := by
  have hwrite (v : Vector Byte 16) : State.advance { s with v := v } = { s with v := v, pc := s.pc + 2#16 } := rfl
  rw [State.v_advance]
  exact hwrite _

/-- Settles O36. -/
theorem loadRegistersThroughIndex : Obligations.LoadRegistersThroughIndex := by
  intro x s
  simp only [Nat.add_assoc]
  refine ⟨fun hin => ?_, fun hout => accessThen_outside (Nat.succ_ne_zero x.val) hout⟩
  refine ⟨_, exec_ldVxMem_next.2 ⟨hin, rfl⟩, fun r => ?_, s.advance_setRegs _⟩
  rw [State.reg_advance, State.reg_setRegs_load, State.dataAddress]

/-! ### The frame -/

/-- A load writes registers and PC only. -/
theorem State.sameButRegs_advance_setRegs (s : State) (bs : List Byte) : s.SameButRegs (s.setRegs bs).advance := by
  rw [State.advance_setRegs]
  exact State.sameButRegs_of_eq rfl

/-- Settles O37: the three writes of I, the two stores (and the bytes they leave), and the load. -/
theorem indexAndMemoryFrame : Obligations.IndexAndMemoryFrame := by
  intro x nnn i s t h
  simp only [List.mem_cons, List.not_mem_nil, or_false]
  refine ⟨?_, ?_, ?_, ?_, ?_⟩
  · rintro (rfl | rfl | rfl) <;> obtain rfl := Host.Outcome.next.inj h <;>
      exact ⟨fun _ _ => rfl, fun _ => rfl, ⟨rfl, rfl⟩, ⟨rfl, rfl⟩, rfl, rfl⟩
  · rintro (rfl | rfl) <;> obtain ⟨-, hnext⟩ := accessThen_next.1 h <;>
      obtain rfl := Host.Outcome.next.inj hnext <;>
      exact ⟨fun _ _ => rfl, rfl, ⟨rfl, rfl⟩, ⟨rfl, rfl⟩, rfl, rfl⟩
  · rintro rfl
    obtain ⟨-, rfl⟩ := exec_ldB_next.1 h
    exact s.sameMemoryOutside_store s.dataAddress (decimalDigits (s.reg x))
  · rintro rfl
    obtain ⟨-, rfl⟩ := exec_ldMemVx_next.1 h
    exact s.sameMemoryOutside_store_regsUpTo s.dataAddress x
  · rintro rfl
    obtain ⟨-, rfl⟩ := exec_ldVxMem_next.1 h
    refine ⟨fun r hr => ?_, s.sameButRegs_advance_setRegs _⟩
    rw [State.reg_advance, State.reg_setRegs_load, if_neg (Fin.not_le.2 hr)]

end Sys2Proof.Machine
end

section
/-! The sprite loop of R182 as a list of flips of distinct pixels, and the statements O40 and O41. A sprite has at
most 15 rows of 8 columns on a display of 32 rows of 64, so that no pixel is flipped twice, whatever wraps. -/
namespace Sys2Proof.Machine

/-! ### The sprite loop as a list of flips -/

/-- The step of the loops of R182 for a set pixel of the sprite at `p` (column, row). -/
def plotPoint (d : Canvas) (p : Nat × Nat) : Canvas := ⟨d.fb.flip p.1 p.2, d.hit || d.fb.pixel p.1 p.2⟩

/-- The set pixels of one sprite row, in the order of the inner loop. -/
def rowPoints (row : Byte) (x0 py : Nat) : List (Nat × Nat) :=
  ([0, 1, 2, 3, 4, 5, 6, 7].filter fun c => row.getLsbD (7 - c)).map fun c => (x0 + c, py)

/-- The set pixels of a sprite, in the order of the outer loop. -/
def spritePoints (x0 : Nat) : Nat → List Byte → List (Nat × Nat)
  | _, [] => []
  | py, row :: rows => rowPoints row x0 py ++ spritePoints x0 (py + 1) rows

/-- Both name one pixel of the display: columns modulo 64, rows modulo 32. -/
def samePixel (x y : Nat) (p : Nat × Nat) : Bool := decide (x % 64 = p.1 % 64 ∧ y % 32 = p.2 % 32)

/-- Columns that are plotted one after another, as flips of the set ones. -/
theorem foldl_plot (row : Byte) (x0 py : Nat) (cs : List Nat) (d : Canvas) :
    cs.foldl (plot row x0 py) d =
      ((cs.filter fun c => row.getLsbD (7 - c)).map fun c => (x0 + c, py)).foldl plotPoint d := by
  induction cs generalizing d with
  | nil => rfl
  | cons c cs ih =>
    rw [List.foldl_cons, ih, List.filter_cons, plot]
    split <;> rfl

theorem drawRow_eq_foldl (row : Byte) (x0 py : Nat) (d : Canvas) :
    drawRow row x0 py d = (rowPoints row x0 py).foldl plotPoint d :=
  foldl_plot row x0 py _ d

theorem drawRows_eq_foldl (x0 py : Nat) (rows : List Byte) (d : Canvas) :
    drawRows x0 py rows d = (spritePoints x0 py rows).foldl plotPoint d := by
  induction rows generalizing py d with
  | nil => rfl
  | cons row rows ih => rw [drawRows, ih, drawRow_eq_foldl, spritePoints, List.foldl_append]

/-! ### The points of a sprite -/

theorem mem_rowPoints {row : Byte} {x0 py : Nat} {p : Nat × Nat} :
    p ∈ rowPoints row x0 py ↔ ∃ c < 8, row.getLsbD (7 - c) = true ∧ p = (x0 + c, py) := by
  have hcol (c : Nat) : c ∈ [0, 1, 2, 3, 4, 5, 6, 7] ↔ c < 8 := by
    simp only [List.mem_cons, List.not_mem_nil, or_false]
    omega
  simp only [rowPoints, List.mem_map, List.mem_filter, hcol, and_assoc, eq_comm]

theorem mem_spritePoints {x0 py : Nat} {rows : List Byte} {p : Nat × Nat} :
    p ∈ spritePoints x0 py rows ↔
      ∃ r c row, rows[r]? = some row ∧ c < 8 ∧ row.getLsbD (7 - c) = true ∧ p = (x0 + c, py + r) := by
  induction rows generalizing py with
  | nil => simp [spritePoints]
  | cons row rows ih =>
    rw [spritePoints, List.mem_append, mem_rowPoints, ih]
    constructor
    · rintro (⟨c, hc, hbit, rfl⟩ | ⟨r, c, row', hrow, hc, hbit, rfl⟩)
      · exact ⟨0, c, row, rfl, hc, hbit, rfl⟩
      · exact ⟨r + 1, c, row', hrow, hc, hbit, by rw [Nat.add_assoc, Nat.add_comm 1]⟩
    · rintro ⟨r, c, row', hrow, hc, hbit, rfl⟩
      cases r with
      | zero =>
        obtain rfl : row = row' := Option.some.inj hrow
        exact Or.inl ⟨c, hc, hbit, rfl⟩
      | succ r => exact Or.inr ⟨r, c, row', hrow, hc, hbit, by rw [Nat.add_assoc, Nat.add_comm 1]⟩

/-- No two set pixels of a row are one pixel of the display. -/
theorem rowPoints_distinct (row : Byte) (x0 py : Nat) :
    (rowPoints row x0 py).Pairwise fun p q => samePixel p.1 p.2 q = false := by
  have hcols : [0, 1, 2, 3, 4, 5, 6, 7].Pairwise fun c c' : Nat => c < c' ∧ c' < 8 := by decide
  refine List.Pairwise.map _ (fun c c' hc => ?_) (hcols.filter _)
  have hne : (x0 + c) % 64 ≠ (x0 + c') % 64 := by omega
  simp [samePixel, hne]

/-- No two set pixels of a sprite are one pixel of the display, which has 32 rows. -/
theorem spritePoints_distinct (x0 py : Nat) (rows : List Byte) (hlen : rows.length ≤ 32) :
    (spritePoints x0 py rows).Pairwise fun p q => samePixel p.1 p.2 q = false := by
  induction rows generalizing py with
  | nil => exact List.Pairwise.nil
  | cons row rows ih =>
    rw [List.length_cons] at hlen
    refine List.pairwise_append.2 ⟨rowPoints_distinct row x0 py, ih _ (by omega), fun p hp q hq => ?_⟩
    obtain ⟨c, -, -, rfl⟩ := mem_rowPoints.1 hp
    obtain ⟨r, c', row', hrow, -, -, rfl⟩ := mem_spritePoints.1 hq
    obtain ⟨hr, -⟩ := List.getElem?_eq_some_iff.1 hrow
    have hne : py % 32 ≠ (py + 1 + r) % 32 := by omega
    simp [samePixel, hne]

/-! ### Flips of distinct points -/

theorem samePixel_comm (p q : Nat × Nat) : samePixel p.1 p.2 q = samePixel q.1 q.2 p := by
  simp only [samePixel, eq_comm]

theorem samePixel_eq_false_of_trans {x y : Nat} {p q : Nat × Nat} (hp : samePixel x y p = true)
    (hpq : samePixel p.1 p.2 q = false) : samePixel x y q = false := by
  simp only [samePixel, decide_eq_true_eq, decide_eq_false_iff_not] at hp hpq ⊢
  omega

theorem pixel_plotPoint (d : Canvas) (p : Nat × Nat) (x y : Nat) :
    (plotPoint d p).fb.pixel x y = (d.fb.pixel x y ^^ samePixel x y p) :=
  Frame.pixel_flip d.fb p.1 p.2 x y

/-- Distinct points flip each its own pixel once. -/
theorem pixel_foldl_plotPoint {ps : List (Nat × Nat)} (hps : ps.Pairwise fun p q => samePixel p.1 p.2 q = false)
    (d : Canvas) (x y : Nat) :
    (ps.foldl plotPoint d).fb.pixel x y = (d.fb.pixel x y ^^ ps.any (samePixel x y)) := by
  induction ps generalizing d with
  | nil => simp
  | cons p ps ih =>
    obtain ⟨hp, hps⟩ := List.pairwise_cons.1 hps
    rw [List.foldl_cons, ih hps, pixel_plotPoint, List.any_cons]
    cases hsame : samePixel x y p with
    | false => simp
    | true =>
      have hrest : ps.any (samePixel x y) = false :=
        List.any_eq_false.2 fun q hq => by simp [samePixel_eq_false_of_trans hsame (hp q hq)]
      simp [hrest]

/-- With distinct points a hit is a point that was lit before the draw. -/
theorem hit_foldl_plotPoint {ps : List (Nat × Nat)} (hps : ps.Pairwise fun p q => samePixel p.1 p.2 q = false)
    (d : Canvas) : (ps.foldl plotPoint d).hit = (d.hit || ps.any fun p => d.fb.pixel p.1 p.2) := by
  induction ps generalizing d with
  | nil => simp
  | cons p ps ih =>
    obtain ⟨hp, hps⟩ := List.pairwise_cons.1 hps
    have hkept : (ps.any fun q => (plotPoint d p).fb.pixel q.1 q.2) = ps.any fun q => d.fb.pixel q.1 q.2 := by
      rw [Bool.eq_iff_iff, List.any_eq_true, List.any_eq_true]
      refine exists_congr fun q => and_congr_right fun hq => ?_
      rw [pixel_plotPoint, samePixel_comm, hp q hq, Bool.xor_false]
    rw [List.foldl_cons, ih hps, hkept, List.any_cons, ← Bool.or_assoc]
    rfl

/-! ### The draw -/

/-- The set pixels of the sprite of `DXYN`. -/
def State.drawnPoints (s : State) (x y : Reg) (n : Fin 16) : List (Nat × Nat) :=
  spritePoints (s.spriteX x) (s.spriteY y) (s.spriteRows n)

theorem State.drawnPoints_distinct (s : State) (x y : Reg) (n : Fin 16) :
    (s.drawnPoints x y n).Pairwise fun p q => samePixel p.1 p.2 q = false :=
  spritePoints_distinct _ _ _ (by rw [State.spriteRows, Memory.load_length]; omega)

theorem State.mem_drawnPoints {s : State} {x y : Reg} {n : Fin 16} {p : Nat × Nat} :
    p ∈ s.drawnPoints x y n ↔ ∃ r c, r < n.val ∧ c < 8 ∧ (s.mem.read (s.i.toNat + r)).getLsbD (7 - c) = true ∧
      p = ((s.reg x).toNat % 64 + c, (s.reg y).toNat % 32 + r) := by
  rw [State.drawnPoints, mem_spritePoints]
  constructor
  · rintro ⟨r, c, row, hrow, hc, hbit, rfl⟩
    have hr : r < n.val := by simpa [State.spriteRows] using (List.getElem?_eq_some_iff.1 hrow).1
    rw [State.spriteRows, Memory.load_getElem?_of_lt _ _ hr] at hrow
    obtain rfl := Option.some.inj hrow
    exact ⟨r, c, hr, hc, hbit, rfl⟩
  · rintro ⟨r, c, hr, hc, hbit, rfl⟩
    exact ⟨r, c, _, Memory.load_getElem?_of_lt _ _ hr, hc, hbit, rfl⟩

/-- The pixels the sprite covers are the drawn points. -/
theorem State.spriteCovers_iff {s : State} {x y : Reg} {n : Fin 16} {px py : Nat} (hx : px < 64) (hy : py < 32) :
    s.SpriteCovers x y n px py ↔ (s.drawnPoints x y n).any (samePixel px py) = true := by
  simp only [List.any_eq_true, State.mem_drawnPoints, samePixel, decide_eq_true_eq, Nat.mod_eq_of_lt hx,
    Nat.mod_eq_of_lt hy]
  constructor
  · rintro ⟨r, c, hr, hc, hbit, hpx, hpy⟩
    exact ⟨_, ⟨r, c, hr, hc, hbit, rfl⟩, hpx, hpy⟩
  · rintro ⟨_, ⟨r, c, hr, hc, hbit, rfl⟩, hpx, hpy⟩
    exact ⟨r, c, hr, hc, hbit, hpx, hpy⟩

theorem Frame.pixel_mod (fb : Frame) (x y : Nat) : fb.pixel (x % 64) (y % 32) = fb.pixel x y := by
  simp [Frame.pixel]

/-- A collision is a drawn point that is lit before the draw. -/
theorem State.collides_iff {s : State} {x y : Reg} {n : Fin 16} :
    s.Collides x y n ↔ ((s.drawnPoints x y n).any fun p => s.fb.pixel p.1 p.2) = true := by
  simp only [List.any_eq_true, State.mem_drawnPoints]
  constructor
  · rintro ⟨_, _, -, -, ⟨r, c, hr, hc, hbit, rfl, rfl⟩, hlit⟩
    exact ⟨_, ⟨r, c, hr, hc, hbit, rfl⟩, by rwa [Frame.pixel_mod] at hlit⟩
  · rintro ⟨_, ⟨r, c, hr, hc, hbit, rfl⟩, hlit⟩
    exact ⟨_, _, Nat.mod_lt _ (by decide), Nat.mod_lt _ (by decide), ⟨r, c, hr, hc, hbit, rfl, rfl⟩,
      by rwa [Frame.pixel_mod]⟩

/-- A draw flips the drawn points (R182). -/
theorem State.pixel_draw (s : State) (x y : Reg) (n : Fin 16) (px py : Nat) :
    (s.draw x y n).fb.pixel px py = (s.fb.pixel px py ^^ (s.drawnPoints x y n).any (samePixel px py)) := by
  rw [State.draw, State.fb_setFlag, State.fb_setFb, drawRows_eq_foldl]
  exact pixel_foldl_plotPoint (s.drawnPoints_distinct x y n) _ px py

/-- A draw leaves in VF whether a drawn point was lit (R182). -/
theorem State.reg_draw_vf (s : State) (x y : Reg) (n : Fin 16) :
    (s.draw x y n).reg vf = flagByte ((s.drawnPoints x y n).any fun p => s.fb.pixel p.1 p.2) := by
  rw [State.draw, State.reg_setFlag, if_pos rfl, drawRows_eq_foldl]
  exact congrArg flagByte (hit_foldl_plotPoint (s.drawnPoints_distinct x y n) _)

/-- A draw followed by the sequential advance, as one record update. -/
theorem State.advance_draw (s : State) (x y : Reg) (n : Fin 16) :
    (s.draw x y n).advance =
      { s with fb := (s.draw x y n).advance.fb, v := (s.draw x y n).advance.v, pc := s.pc + 2#16 } := rfl

theorem State.sameRegsExcept_draw (s : State) (x y : Reg) (n : Fin 16) :
    s.SameRegsExcept [0xF] (s.draw x y n).advance := by
  intro r hr
  exact s.reg_draw x y r n (by simpa using hr)

/-- Settles O40: a draw flips each drawn point once, and VF is the collision. -/
theorem drawXorsTheSpriteAndReportsCollision : Obligations.DrawXorsTheSpriteAndReportsCollision := by
  intro x y n s
  refine ⟨fun hin => ?_, fun h0 hout => accessThen_outside h0 hout⟩
  refine ⟨_, exec_drw_next.2 ⟨hin, rfl⟩, fun px py hx hy => ⟨fun hc => ?_, fun hc => ?_⟩, fun hc => ?_, fun hc => ?_,
    s.sameRegsExcept_draw x y n, s.advance_draw x y n⟩
  · rw [State.spriteCovers_iff hx hy] at hc
    rw [State.fb_advance, State.pixel_draw, hc, Bool.xor_true]
  · rw [State.spriteCovers_iff hx hy, Bool.not_eq_true] at hc
    rw [State.fb_advance, State.pixel_draw, hc, Bool.xor_false]
  · rw [State.collides_iff] at hc
    rw [State.reg_advance, State.reg_draw_vf, hc, flagByte, if_pos rfl]
  · rw [State.collides_iff, Bool.not_eq_true] at hc
    rw [State.reg_advance, State.reg_draw_vf, hc, flagByte, if_neg Bool.false_ne_true]

/-- Settles O41. -/
theorem displayFrame : Obligations.DisplayFrame := by
  intro x y n i s t h hi
  simp only [List.mem_cons, List.not_mem_nil, or_false] at hi
  obtain rfl | rfl := hi
  · obtain rfl := Host.Outcome.next.inj h
    exact ⟨fun _ _ => rfl, fun _ _ _ => rfl, fun _ => rfl, rfl, ⟨rfl, rfl⟩, ⟨rfl, rfl⟩, rfl⟩
  · obtain ⟨-, rfl⟩ := exec_drw_next.1 h
    exact ⟨s.sameRegsExcept_draw x y n, nofun, fun _ => rfl, rfl, ⟨rfl, rfl⟩, ⟨rfl, rfl⟩, rfl⟩

end Sys2Proof.Machine
end

section
/-! The key wait and the timer accesses: the statements O42, O44 and O45. -/
namespace Sys2Proof.Machine

/-- The least pressed key is the first one found (R193). -/
theorem State.firstPressed_eq_some_iff (s : State) (k : KeyIndex) :
    s.firstPressed = some k ↔ s.pressed k = true ∧ ∀ j < k, s.pressed j = false := by
  rw [State.firstPressed, List.find?_eq_some_iff_getElem]
  refine and_congr_right fun _ => ⟨?_, fun hleast => ?_⟩
  · rintro ⟨i, hi, rfl, hleast⟩ j hj
    have hfind := hleast j.val (by simpa [Fin.lt_def] using hj)
    simpa using hfind
  · refine ⟨k.val, by simp, by simp, fun j hj => ?_⟩
    have hfind := hleast ⟨j, by omega⟩ hj
    simpa using hfind

/-- Settles O42. -/
theorem keyWaitTakesTheLeastKey : Obligations.KeyWaitTakesTheLeastKey := by
  intro x s
  refine ⟨fun k hk hleast => ?_, fun hnone => ?_⟩
  · exact exec_ldVxK_next.2 (Or.inl ⟨k, (s.firstPressed_eq_some_iff k).2 ⟨hk, hleast⟩, rfl⟩)
  · exact exec_ldVxK_next.2 (Or.inr ⟨s.firstPressed_eq_none_iff.2 hnone, rfl⟩)

/-- Settles O44. -/
theorem soundTimerWriteDrivesTheOutput : Obligations.SoundTimerWriteDrivesTheOutput := by
  intro x s
  exact ⟨(s.setSt (s.reg x)).advance, rfl, rfl, bne_iff_ne, rfl⟩

/-- Consuming the least pressed key leaves every key that is not the least pressed one (R193). -/
theorem State.pressed_setKey_least {s : State} {k j : KeyIndex} (hk : s.firstPressed = some k)
    (hj : (∃ j' < j, s.pressed j' = true) ∨ s.pressed j = false) : (s.setKey k false).pressed j = s.pressed j := by
  obtain ⟨hpressed, hleast⟩ := (s.firstPressed_eq_some_iff k).1 hk
  have hne : j ≠ k := by
    rintro rfl
    obtain ⟨j', hlt, hj'⟩ | hnot := hj
    · exact Bool.false_ne_true ((hleast j' hlt).symm.trans hj')
    · exact Bool.false_ne_true (hnot.symm.trans hpressed)
  rw [State.pressed_setKey, if_neg hne]

/-- Settles O45: the key wait took a key or left the state as it is; the others are one write each. -/
theorem keyAndTimerFrame : Obligations.KeyAndTimerFrame := by
  intro x i s t h hi
  simp only [List.mem_cons, List.not_mem_nil, or_false] at hi
  obtain rfl | rfl | rfl | rfl := hi
  · obtain ⟨k, hk, rfl⟩ | ⟨-, rfl⟩ := exec_ldVxK_next.1 h
    · refine ⟨fun _ => rfl, rfl, ⟨rfl, rfl⟩, rfl, s.sameRegsExcept_advance_setReg x _, nofun,
        fun _ => ⟨⟨rfl, rfl⟩, fun j hj => ?_⟩, nofun, nofun⟩
      exact State.pressed_setKey_least hk hj
    · exact ⟨fun _ => rfl, rfl, ⟨rfl, rfl⟩, rfl, fun _ _ => rfl, nofun, fun _ => ⟨⟨rfl, rfl⟩, fun _ _ => rfl⟩,
        nofun, nofun⟩
  · obtain rfl := Host.Outcome.next.inj h
    exact ⟨fun _ => rfl, rfl, ⟨rfl, rfl⟩, rfl, s.sameRegsExcept_advance_setReg x _, fun _ => ⟨⟨rfl, rfl⟩, rfl⟩,
      nofun, nofun, nofun⟩
  · obtain rfl := Host.Outcome.next.inj h
    exact ⟨fun _ => rfl, rfl, ⟨rfl, rfl⟩, rfl, fun _ _ => rfl, nofun, nofun, fun _ => ⟨fun _ _ => rfl, rfl, rfl⟩, nofun⟩
  · obtain rfl := Host.Outcome.next.inj h
    exact ⟨fun _ => rfl, rfl, ⟨rfl, rfl⟩, rfl, fun _ _ => rfl, nofun, nofun, nofun, fun _ => ⟨fun _ _ => rfl, rfl, rfl⟩⟩

end Sys2Proof.Machine
end

section
/-! The host commands that write the state: the statements O47, O48, O51 and O52. -/
namespace Sys2Proof.Machine

/-- Settles O47. -/
theorem loadProgramCopiesAllOrNothing : Obligations.LoadProgramCopiesAllOrNothing := by
  intro bytes s hwf
  refine ⟨fun hfits => ⟨_, loadProgram_of_fits hfits s, fun k b hb => ?_, fun a ha => ?_, rfl⟩,
    fun hlong => loadProgram_of_long hlong s⟩
  · exact Memory.read_store_of_getElem? hwf (by omega) hb
  · exact Memory.read_store_outside s.mem 0x200 a bytes ha

/-- Settles O48. -/
theorem setKeySetsOneFlag : Obligations.SetKeySetsOneFlag := by
  intro k p s
  exact ⟨s.setKey k p, rfl, fun j => s.pressed_setKey k j p, rfl⟩

/-- A vector made of a list of its size holds the list. -/
theorem toList_ofFn_getD {α : Type} {n : Nat} {l : List α} (d : α) (h : l.length = n) :
    (Vector.ofFn fun j : Fin n => l.getD j.val d).toList = l := by
  subst h
  apply List.ext_getElem <;> simp

/-- A capture of a state that meets the invariant is accepted (R104). -/
theorem captureState_wellFormed {s : State} (hinv : s.Inv) : (captureState s).wellFormed = true := by
  obtain ⟨-, hsp, hpc⟩ := hinv
  rw [Snapshot.wellFormed_iff]
  simp [captureState, hsp, hpc]

/-- A capture holds every part of the state but the counter of draws (R103). -/
theorem toState_captureState {s : State} (hwf : s.mem.wf = true) (d : Nat) :
    (captureState s).toState d = { s with randDraws := d } := by
  simp [Snapshot.toState, captureState, Memory.ofBytes_load hwf]

/-- Settles O51: the capture is well-formed, and its memory is made again in canonical form. -/
theorem restoreOfCaptureIsTheState : Obligations.RestoreOfCaptureIsTheState := by
  intro s s' hinv
  obtain ⟨hwf, -, -⟩ := id hinv
  refine ⟨captureState s, rfl, ?_⟩
  rw [command, restoreState_of_wellFormed (captureState_wellFormed hinv), toState_captureState hwf]

/-- Settles O52: what R104 asks decides, and each list of the right size is the vector made of it. -/
theorem restoreRejectsExactlyMalformedSnapshots : Obligations.RestoreRejectsExactlyMalformedSnapshots := by
  intro s
  refine ⟨rfl, fun p => ⟨fun hbad => ?_, fun hgood => ?_⟩⟩
  · refine restoreState_of_malformed (fun hwf => ?_) s
    have hsizes := (Snapshot.wellFormed_iff p).1 hwf
    omega
  · obtain ⟨hmem, hv, hstack, hfb, hkey, -, -⟩ := id hgood
    refine ⟨_, restoreState_of_wellFormed ((Snapshot.wellFormed_iff p).2 hgood) s, fun a b hb => ?_,
      toList_ofFn_getD _ hv, rfl, rfl, rfl, toList_ofFn_getD _ hstack, rfl, rfl, toList_ofFn_getD _ hfb,
      toList_ofFn_getD _ hkey⟩
    obtain ⟨ha, rfl⟩ := List.getElem?_eq_some_iff.1 hb
    have hread := Memory.read_ofBytes 0 p.mem (by omega) a ha
    rwa [Nat.zero_add] at hread

end Sys2Proof.Machine
end
